-- ==== Sys2Proof/Word.lean ====
section
/-! DEFINITION. The word and byte types of the hash core (00_scope.md rules R7, R9). -/

namespace Sys2Proof

/-- A u32: the word of the SHA-256 and MD5 engines, of the bus and of the command (R7, R9, R80). -/
abbrev Word := BitVec 32

/-- A u8: one byte of the message, of BLOCK or of a digest (R9, R11). -/
abbrev Byte := BitVec 8

/-- The 64 bits of LEN (R23) and of the accumulator's storage (R26; notes/assumptions/13.md). -/
abbrev DWord := BitVec 64

end Sys2Proof
end

