-- ==== Sys2Proof/Syntax.lean ====
section
/-! DEFINITION. The twelve commands of the hash core, one constructor per row of spec/opcode_table.json
(30_encoding.md rule R84). -/

namespace Sys2Proof

/-- A command (R84). The operand of the J form is the u64 `j = zext_64(ARG)`, that of the B form a u8 (R83, R85). -/
inductive Instr where
  /-- NOP (R243). -/
  | nop
  /-- SHA_INIT (R169). -/
  | shaInit
  /-- SHA_BLOCK (R170). -/
  | shaBlock
  /-- SHA_MSG (R171). -/
  | shaMsg
  /-- PADBLK_SHA j (R146). -/
  | padblkSha (j : DWord)
  /-- MD5_INIT (R199). -/
  | md5Init
  /-- MD5_BLOCK (R200). -/
  | md5Block
  /-- MD5_MSG (R201). -/
  | md5Msg
  /-- PADBLK_MD5 j (R147). -/
  | padblkMd5 (j : DWord)
  /-- DJB_INIT (R224). -/
  | djbInit
  /-- DJB_BYTE b (R225). -/
  | djbByte (b : Byte)
  /-- DJB_MSG (R226). -/
  | djbMsg
  deriving DecidableEq, Repr

end Sys2Proof
end

