-- ==== Sys2Proof/WellFormed.lean ====
section
/-! DEFINITION. Which commands have an encoding: a block index must fit the 24-bit ARG field (30_encoding.md rules
R82, R83; 41_padder.md rule R146: "j ≥ 2^24 cannot be encoded"). -/

namespace Sys2Proof

/-- A block index of the J form lies in 0..2^24−1 (R83). -/
abbrev indexFits (j : DWord) : Prop := j.toNat < 2 ^ 24

/-- The well-formed commands, as a check. Only the J form restricts its operand; a u8 always fits the B form (R83). -/
def Instr.wellFormed : Instr → Bool
  | .nop => true
  | .shaInit => true
  | .shaBlock => true
  | .shaMsg => true
  | .padblkSha j => decide (indexFits j)
  | .md5Init => true
  | .md5Block => true
  | .md5Msg => true
  | .padblkMd5 j => decide (indexFits j)
  | .djbInit => true
  | .djbByte _ => true
  | .djbMsg => true

/-- `i` has an encoding. -/
abbrev Instr.WellFormed (i : Instr) : Prop := i.wellFormed = true

end Sys2Proof
end

