-- ==== Sys2Proof/Decode.lean ====
section
/-! DEFINITION. Decoding a command word (30_encoding.md rules R80-R88), total on all 2^32 words, and the encoder.
A command is ONE 32-bit word: no bytes, prefixes or further words (R80, R88). -/

namespace Sys2Proof

/-- OP = c[7:0] (R81). -/
def opField (c : Word) : BitVec 8 := c.extractLsb' 0 8

/-- ARG = c[31:8] (R82). -/
def argField (c : Word) : BitVec 24 := c.extractLsb' 8 24

/-- A command word from its two fields (R80, R89: "Its encoding is `OP | (ARG << 8)`"). -/
def commandWord (op : BitVec 8) (arg : BitVec 24) : Word := arg ++ op

/-- Why a word is Illegal: the two kinds of R86. -/
inductive DecodeError where
  /-- OP is none of the twelve values. -/
  | unassignedOpcode
  /-- OP is listed, but ARG breaks its form. -/
  | reservedArg
  deriving DecidableEq, Repr

/-- Form Z: ARG must be zero (R83). -/
def formZ (arg : BitVec 24) (i : Instr) : Except DecodeError Instr :=
  if arg = 0 then .ok i else .error .reservedArg

/-- Form J: `j = zext_64(ARG)` (R83). -/
def formJ (arg : BitVec 24) (mk : DWord → Instr) : Except DecodeError Instr :=
  .ok (mk (arg.setWidth 64))

/-- Form B: `byte = ARG[7:0]`, and ARG[23:8] must be zero (R83). -/
def formB (arg : BitVec 24) (mk : Byte → Instr) : Except DecodeError Instr :=
  if arg.extractLsb' 8 16 = 0 then .ok (mk (arg.extractLsb' 0 8)) else .error .reservedArg

/-- Decoding by opcode (R84, R85). -/
def decodeFields (op : BitVec 8) (arg : BitVec 24) : Except DecodeError Instr :=
  if op = 0x00#8 then formZ arg .nop
  else if op = 0x01#8 then formZ arg .shaInit
  else if op = 0x02#8 then formZ arg .shaBlock
  else if op = 0x03#8 then formZ arg .shaMsg
  else if op = 0x04#8 then formJ arg .padblkSha
  else if op = 0x11#8 then formZ arg .md5Init
  else if op = 0x12#8 then formZ arg .md5Block
  else if op = 0x13#8 then formZ arg .md5Msg
  else if op = 0x14#8 then formJ arg .padblkMd5
  else if op = 0x21#8 then formZ arg .djbInit
  else if op = 0x22#8 then formB arg .djbByte
  else if op = 0x23#8 then formZ arg .djbMsg
  else .error .unassignedOpcode

/-- Decoding is total on all words (R85). No mode changes it (R88). -/
def decode (c : Word) : Except DecodeError Instr := decodeFields (opField c) (argField c)

/-- What the decoder reads from an instruction of `nbits` bits numbered as spec/opcode_table.json numbers them: a command
is one 32-bit word, so a longer instruction does not exist, and bits above `nbits` are zero. -/
def decodeTableWord (nbits w : Nat) : Option Instr :=
  if nbits ≤ 32 then
    match decode (BitVec.ofNat 32 (w % 2 ^ nbits)) with
    | .ok i => some i
    | .error _ => none
  else none

/-- The opcode of each command (R84). -/
def Instr.op : Instr → BitVec 8
  | .nop => 0x00#8
  | .shaInit => 0x01#8
  | .shaBlock => 0x02#8
  | .shaMsg => 0x03#8
  | .padblkSha _ => 0x04#8
  | .md5Init => 0x11#8
  | .md5Block => 0x12#8
  | .md5Msg => 0x13#8
  | .padblkMd5 _ => 0x14#8
  | .djbInit => 0x21#8
  | .djbByte _ => 0x22#8
  | .djbMsg => 0x23#8

/-- The ARG field of each command (R83): zero in form Z, the low 24 bits of j in form J, the byte in form B. -/
def Instr.arg : Instr → BitVec 24
  | .nop => 0
  | .shaInit => 0
  | .shaBlock => 0
  | .shaMsg => 0
  | .padblkSha j => j.setWidth 24
  | .md5Init => 0
  | .md5Block => 0
  | .md5Msg => 0
  | .padblkMd5 j => j.setWidth 24
  | .djbInit => 0
  | .djbByte b => b.setWidth 24
  | .djbMsg => 0

/-- The word of a well-formed command (R89). -/
def encode (i : Instr) : Word := commandWord i.op i.arg

/-- One row of the opcode map: a word `c` selects it when `c & mask = match` (R84). -/
structure OpcodeRow where
  pattern : Word
  mask : Word
  deriving DecidableEq, Repr

/-- The row's test of R84. -/
def OpcodeRow.selects (r : OpcodeRow) (c : Word) : Bool := c &&& r.mask == r.pattern

/-- The row of each command, its match and mask as R84 lists them. -/
def Instr.row : Instr → OpcodeRow
  | .nop => ⟨0x00000000#32, 0xFFFFFFFF#32⟩
  | .shaInit => ⟨0x00000001#32, 0xFFFFFFFF#32⟩
  | .shaBlock => ⟨0x00000002#32, 0xFFFFFFFF#32⟩
  | .shaMsg => ⟨0x00000003#32, 0xFFFFFFFF#32⟩
  | .padblkSha _ => ⟨0x00000004#32, 0x000000FF#32⟩
  | .md5Init => ⟨0x00000011#32, 0xFFFFFFFF#32⟩
  | .md5Block => ⟨0x00000012#32, 0xFFFFFFFF#32⟩
  | .md5Msg => ⟨0x00000013#32, 0xFFFFFFFF#32⟩
  | .padblkMd5 _ => ⟨0x00000014#32, 0x000000FF#32⟩
  | .djbInit => ⟨0x00000021#32, 0xFFFFFFFF#32⟩
  | .djbByte _ => ⟨0x00000022#32, 0xFFFF00FF#32⟩
  | .djbMsg => ⟨0x00000023#32, 0xFFFFFFFF#32⟩

/-- The opcode map of R84, in its order. -/
def opcodeMap : List OpcodeRow :=
  [Instr.nop, .shaInit, .shaBlock, .shaMsg, .padblkSha 0, .md5Init, .md5Block, .md5Msg, .padblkMd5 0, .djbInit,
    .djbByte 0, .djbMsg].map Instr.row

end Sys2Proof
end

