-- ==== Sys2Proof/Config.lean ====
section
/-! DEFINITION. What an implementation of the hash core fixes (00_scope.md rule R8), and the free values the spec leaves
open (70_reset_and_hazards.md rule R296; 93_implementation_defined.md U7, U17). -/

namespace Sys2Proof

/-- DJB_W, the width of the DJB2 accumulator (R8, R220). -/
inductive DjbWidth where
  | w32
  | w64
  deriving DecidableEq, Repr

/-- DJB_BYTE_EXT, how a message byte widens before DJB2 adds it (R8, R221). -/
inductive ByteExt where
  | zext
  | sext
  deriving DecidableEq, Repr

/-- The three parameters of a hardware instance (R8). They are arguments of the model: State carries them, no step
changes them, and a statement over every state holds for every instance (notes/assumptions/1.md). -/
structure Config where
  /-- MSG_CAP, the bytes of message memory, read back by the CAP register (R25, R53). -/
  msgCap : Nat
  djbWidth : DjbWidth
  byteExt : ByteExt
  deriving DecidableEq, Repr

/-- The legal values of the parameters: 1 ≤ MSG_CAP ≤ 2^30 − 9, and any width and widening (R8). -/
abbrev Config.legal (c : Config) : Prop := 1 ≤ c.msgCap ∧ c.msgCap ≤ 2 ^ 30 - 9

/-- The instance State.reset describes: DJB_W = 64 and zext are the defaults of R8; MSG_CAP has no default and takes the
4096 of 95_test_vectors.md. DESIGN CHOICE, unsafe for a claim about State.reset alone (notes/assumptions/1.md). -/
def Config.standard : Config := { msgCap := 4096, djbWidth := .w64, byteExt := .zext }

/-- The free draws of the spec: `any`, "a fresh draw on every read, under no law" (R296), and what a faulted command
leaves (U17). The n-th draw is the value at n. It has no body: no proof can see what it is.
DESIGN CHOICE, safe (notes/assumptions/7.md, notes/assumptions/6.md). -/
opaque Config.freeWord : Nat → Word

end Sys2Proof
end

