-- ==== Sys2Proof/Machine/Rom.lean ====
section
/-! DEFINITION. The constant ROM (10_state.md rule R32): the tables of 42_sha256.md rules R160, R161 and of 43_md5.md
rules R190-R192. Nothing writes it and the host cannot read it, so it is no field of State. The spec takes the values
from FIPS 180-4 and RFC 1321 (93_implementation_defined.md G1-G4; notes/assumptions/16.md). -/

namespace Sys2Proof.Machine

/-- The SHA-256 hash state and its working registers a..h: eight u32 (R27, R164). -/
structure ShaRegs where
  a : Word
  b : Word
  c : Word
  d : Word
  e : Word
  f : Word
  g : Word
  h : Word
  deriving DecidableEq, Repr

/-- The MD5 hash state and its working registers A..D: four u32 (R28, R195). -/
structure Md5Regs where
  a : Word
  b : Word
  c : Word
  d : Word
  deriving DecidableEq, Repr

/-- IV_SHA[0..7] (R160). -/
def ivSha : ShaRegs :=
  { a := 0x6A09E667#32, b := 0xBB67AE85#32, c := 0x3C6EF372#32, d := 0xA54FF53A#32,
    e := 0x510E527F#32, f := 0x9B05688C#32, g := 0x1F83D9AB#32, h := 0x5BE0CD19#32 }

/-- IV_MD5[0..3] (R190). -/
def ivMd5 : Md5Regs :=
  { a := 0x67452301#32, b := 0xEFCDAB89#32, c := 0x98BADCFE#32, d := 0x10325476#32 }

/-- K_SHA[0..63] (R161). -/
def kShaTable : List Word :=
  [0x428A2F98#32, 0x71374491#32, 0xB5C0FBCF#32, 0xE9B5DBA5#32,
    0x3956C25B#32, 0x59F111F1#32, 0x923F82A4#32, 0xAB1C5ED5#32] ++
  [0xD807AA98#32, 0x12835B01#32, 0x243185BE#32, 0x550C7DC3#32,
    0x72BE5D74#32, 0x80DEB1FE#32, 0x9BDC06A7#32, 0xC19BF174#32] ++
  [0xE49B69C1#32, 0xEFBE4786#32, 0x0FC19DC6#32, 0x240CA1CC#32,
    0x2DE92C6F#32, 0x4A7484AA#32, 0x5CB0A9DC#32, 0x76F988DA#32] ++
  [0x983E5152#32, 0xA831C66D#32, 0xB00327C8#32, 0xBF597FC7#32,
    0xC6E00BF3#32, 0xD5A79147#32, 0x06CA6351#32, 0x14292967#32] ++
  [0x27B70A85#32, 0x2E1B2138#32, 0x4D2C6DFC#32, 0x53380D13#32,
    0x650A7354#32, 0x766A0ABB#32, 0x81C2C92E#32, 0x92722C85#32] ++
  [0xA2BFE8A1#32, 0xA81A664B#32, 0xC24B8B70#32, 0xC76C51A3#32,
    0xD192E819#32, 0xD6990624#32, 0xF40E3585#32, 0x106AA070#32] ++
  [0x19A4C116#32, 0x1E376C08#32, 0x2748774C#32, 0x34B0BCB5#32,
    0x391C0CB3#32, 0x4ED8AA4A#32, 0x5B9CCA4F#32, 0x682E6FF3#32] ++
  [0x748F82EE#32, 0x78A5636F#32, 0x84C87814#32, 0x8CC70208#32,
    0x90BEFFFA#32, 0xA4506CEB#32, 0xBEF9A3F7#32, 0xC67178F2#32]

/-- K_MD5[0..63] (R191). -/
def kMd5Table : List Word :=
  [0xD76AA478#32, 0xE8C7B756#32, 0x242070DB#32, 0xC1BDCEEE#32,
    0xF57C0FAF#32, 0x4787C62A#32, 0xA8304613#32, 0xFD469501#32] ++
  [0x698098D8#32, 0x8B44F7AF#32, 0xFFFF5BB1#32, 0x895CD7BE#32,
    0x6B901122#32, 0xFD987193#32, 0xA679438E#32, 0x49B40821#32] ++
  [0xF61E2562#32, 0xC040B340#32, 0x265E5A51#32, 0xE9B6C7AA#32,
    0xD62F105D#32, 0x02441453#32, 0xD8A1E681#32, 0xE7D3FBC8#32] ++
  [0x21E1CDE6#32, 0xC33707D6#32, 0xF4D50D87#32, 0x455A14ED#32,
    0xA9E3E905#32, 0xFCEFA3F8#32, 0x676F02D9#32, 0x8D2A4C8A#32] ++
  [0xFFFA3942#32, 0x8771F681#32, 0x6D9D6122#32, 0xFDE5380C#32,
    0xA4BEEA44#32, 0x4BDECFA9#32, 0xF6BB4B60#32, 0xBEBFBC70#32] ++
  [0x289B7EC6#32, 0xEAA127FA#32, 0xD4EF3085#32, 0x04881D05#32,
    0xD9D4D039#32, 0xE6DB99E5#32, 0x1FA27CF8#32, 0xC4AC5665#32] ++
  [0xF4292244#32, 0x432AFF97#32, 0xAB9423A7#32, 0xFC93A039#32,
    0x655B59C3#32, 0x8F0CCC92#32, 0xFFEFF47D#32, 0x85845DD1#32] ++
  [0x6FA87E4F#32, 0xFE2CE6E0#32, 0xA3014314#32, 0x4E0811A1#32,
    0xF7537E82#32, 0xBD3AF235#32, 0x2AD7D2BB#32, 0xEB86D391#32]

/-- The rows of SHIFT, one per 16 rounds (R192). -/
def shiftRow : Nat → List Nat
  | 0 => [7, 12, 17, 22]
  | 1 => [5, 9, 14, 20]
  | 2 => [4, 11, 16, 23]
  | _ => [6, 10, 15, 21]

/-- K_SHA[i] for i in 0..63 (R161); 0 for a larger i, which names no round: DESIGN CHOICE (notes/assumptions/21.md). -/
def kSha (i : Nat) : Word := kShaTable.getD i 0

/-- K_MD5[i] for i in 0..63 (R191); 0 for a larger i: DESIGN CHOICE (notes/assumptions/21.md). -/
def kMd5 (i : Nat) : Word := kMd5Table.getD i 0

/-- SHIFT[i] = row(i / 16)[i mod 4] for i in 0..63 (R192); the last row for a larger i: DESIGN CHOICE
(notes/assumptions/21.md). -/
def shiftAmount (i : Nat) : Nat := (shiftRow (i / 16)).getD (i % 4) 0

/-- The DJB2 seed, 5381 (R7, R26). -/
def djbSeed : DWord := 5381

end Sys2Proof.Machine
end

