-- ==== Sys2Proof/Machine/DjbEngine.lean ====
section
/-! DEFINITION. The DJB2 accumulator as functions (44_djb2.md rules R220-R223), over the width and widening of the
instance. Its commands are in Machine/DjbCommands.lean. The accumulator is held in 64 bits; with DJB_W = 32 its upper
half is zero (notes/assumptions/13.md). -/

namespace Sys2Proof.Machine

/-- DJB_W as a number of bits (R8). -/
def djbBits (c : Config) : Nat :=
  match c.djbWidth with
  | .w32 => 32
  | .w64 => 64

/-- Reduction modulo 2^DJB_W (R220). -/
def djbReduce (c : Config) (x : DWord) : DWord :=
  match c.djbWidth with
  | .w32 => (x.setWidth 32).setWidth 64
  | .w64 => x

/-- `ext(c)`: how a message byte widens (R221). -/
def djbExt (c : Config) (b : Byte) : DWord :=
  match c.byteExt with
  | .zext => b.setWidth 64
  | .sext => djbReduce c (b.signExtend 64)

/-- `djb_step(h, c) = (h · 33 + ext(c)) mod 2^DJB_W` (R222). -/
def djbStep (c : Config) (h : DWord) (b : Byte) : DWord := djbReduce c (h * 33 + djbExt c b)

/-- `djb2(m)`: the fold from 5381, in address order (R223). -/
def djb2 (c : Config) (m : List Byte) : DWord := m.foldl (djbStep c) djbSeed

end Sys2Proof.Machine
end

