-- ==== Sys2Proof/Machine/State.lean ====
section
/-! DEFINITION. The state of the hash core (10_state.md rules R20-R37; 20_memory.md rule R53) as plain data, the reasons a
model fault is recorded for (60_exceptions.md rule R270), and the state after reset (70_reset_and_hazards.md rule R290). -/

namespace Sys2Proof.Machine

/-- Which rule of the host protocol an access broke (R270). -/
inductive ProtocolFault where
  /-- A REG access that is not 32 bits wide or not at a multiple of 4 (R52). -/
  | regAccess
  /-- An MSG access of another width, misaligned or out of range (R54). -/
  | msgAccess
  /-- A write to CMD while a command is pending (R294). -/
  | cmdWhileBusy
  /-- A write to LEN_LO, LEN_HI, BLOCK or MSG while a command is pending (R295). -/
  | writeWhileBusy
  deriving DecidableEq, Repr

/-- The model faults of R270. They are recorded in FAULT, which is sticky, and later steps proceed (R242, R271; U18), so
no step ANSWERS one as a Host.Outcome.fault (notes/assumptions/5.md). Safe: R271 lets no run with FAULT ≠ none satisfy a
postcondition. -/
inductive Fault where
  /-- Recorded by a host access that breaks the protocol (Machine/HostPort.lean); the access has no other effect. Safe. -/
  | hostProtocol (kind : ProtocolFault)
  /-- Recorded by a host read or by a command's read of an unwritten MSG or BLOCK byte (Machine/HostPort.lean,
  Machine/Ops.lean). Safe: what the command would have written becomes free (notes/assumptions/6.md). -/
  | uninitRead
  deriving DecidableEq, Repr

/-- Why an instruction has no meaning. -/
inductive Refusal where
  /-- Raised by an arm of exec whose instruction is not modelled. Safe. No arm raises it: all twelve are modelled. -/
  | notModelled (mnemonic : String)
  deriving DecidableEq, Repr

/-- FAULT: none, or a set of fault reasons (R37). One membership mark per reason of R270. -/
structure FaultSet where
  regAccess : Bool
  msgAccess : Bool
  cmdWhileBusy : Bool
  writeWhileBusy : Bool
  uninitRead : Bool
  deriving DecidableEq, Repr

/-- FAULT = none. -/
def FaultSet.none : FaultSet := ⟨false, false, false, false, false⟩

/-- STATUS.ERR: the code of the last completed command (R22, R261-R264). Codes 4 to 15 do not exist (R264). -/
inductive ErrCode where
  | ok
  | illegal
  | capacity
  | index
  deriving DecidableEq, Repr

/-- A byte store (MSG, BLOCK): the written bytes at their addresses, addresses strictly rising. An address not listed is
*unwritten*: it has no value (R36; notes/assumptions/14.md). -/
abbrev Memory := List Host.Cell

/-- One access of the host (R50, R52, R54). The width is in bits, since an access of any other width is a fault with no
effect; an 8-bit write carries its byte in bits 7:0. -/
inductive HostAccess where
  /-- RegRead(off) when `bits` = 32. -/
  | regRead (bits : Nat) (off : BitVec 12)
  /-- RegWrite(off, v) when `bits` = 32. -/
  | regWrite (bits : Nat) (off : BitVec 12) (v : Word)
  /-- MsgRead8(a) or MsgRead32(a). -/
  | msgRead (bits : Nat) (a : Nat)
  /-- MsgWrite8(a, v) or MsgWrite32(a, v). -/
  | msgWrite (bits : Nat) (a : Nat) (v : Word)
  deriving DecidableEq, Repr

/-- What takes the next step (R6, R290): the core, the host with one access, or reset. -/
inductive Event where
  | core
  | host (x : HostAccess)
  | reset
  deriving DecidableEq, Repr

/-- What a host read returns: a u8 or a u32 (R52, R54). -/
inductive BusValue where
  | byte (v : Byte)
  | word (v : Word)
  deriving DecidableEq, Repr

/-- The state of the hash core. CMD stores nothing (R21); STATUS, NBLK and CAP are computed (R22, R24, R25); the ROM is
constant (R32). The last three fields are the model's own. -/
structure State where
  /-- MSG_CAP, DJB_W, DJB_BYTE_EXT: constants of the instance (R8). No step changes them. -/
  cfg : Config
  /-- PEND: none, or the pending command word (R30). STATUS.BUSY = 1 exactly when it is not none. -/
  pend : Option Word
  /-- STATUS.ERR (R22). -/
  err : ErrCode
  /-- LEN (R23). -/
  len : DWord
  /-- ACC, the DJB2 accumulator (R26). -/
  acc : DWord
  /-- H[0..7] (R27). -/
  h : ShaRegs
  /-- S[0..3] (R28). -/
  s : Md5Regs
  /-- BLOCK[0..63] and its written marks (R29, R36). -/
  block : Memory
  /-- MSG[0..MSG_CAP−1] and its written marks (R36, R53). -/
  msg : Memory
  /-- FAULT (R37). -/
  fault : FaultSet
  /-- The model's own: how many free values have been drawn (notes/assumptions/7.md). -/
  draws : Nat
  /-- The model's own: what moves next, in order (notes/assumptions/2.md). When it is empty every turn is the core's. -/
  agenda : List Event
  /-- The model's own: what the last host access returned (notes/assumptions/11.md). -/
  bus : Option BusValue
  deriving DecidableEq, Repr

/-- The state after power-on reset of the instance `c` (R290): idle, ERR = 0, LEN = 0, H = IV_SHA, S = IV_MD5, ACC = 5381,
every byte of BLOCK and MSG unwritten. FAULT starts as none (notes/assumptions/12.md). -/
def State.resetWith (c : Config) : State where
  cfg := c
  pend := none
  err := .ok
  len := 0
  acc := djbSeed
  h := ivSha
  s := ivMd5
  block := []
  msg := []
  fault := FaultSet.none
  draws := 0
  agenda := []
  bus := none

/-- The machine right after reset, for the standard instance (notes/assumptions/1.md, notes/assumptions/4.md). -/
def State.reset : State := State.resetWith Config.standard

end Sys2Proof.Machine
end

