-- ==== Sys2Proof/Machine/Flags.lean ====
section
/-! DEFINITION. STATUS: its fields BUSY and ERR, the core's only flags (10_state.md rules R22, R30, R35), and the set
FAULT (rule R37). -/

namespace Sys2Proof.Machine

/-- The 4-bit code of ERR (R22, R261-R264). -/
def ErrCode.code (e : ErrCode) : BitVec 4 :=
  match e with
  | .ok => 0
  | .illegal => 1
  | .capacity => 2
  | .index => 3

/-- An unconstrained code among the four that exist (R264), from two bits of a free value (notes/assumptions/6.md). -/
def ErrCode.ofFree (v : Word) : ErrCode :=
  if v.extractLsb' 0 2 = 0#2 then .ok
  else if v.extractLsb' 0 2 = 1#2 then .illegal
  else if v.extractLsb' 0 2 = 2#2 then .capacity
  else .index

/-- STATUS.BUSY = 1 exactly when PEND ≠ none (R30). -/
def State.busy (s : State) : Bool := s.pend.isSome

/-- STATUS as the host reads it: BUSY in bit 0, ERR in bits 7:4, every other bit 0 (R22). -/
def State.statusWord (s : State) : Word := 0#24 ++ s.err.code ++ 0#3 ++ BitVec.ofBool s.busy

/-- FAULT ∪ {r} (R242). -/
def FaultSet.add (fs : FaultSet) (r : Fault) : FaultSet :=
  match r with
  | .hostProtocol .regAccess => { fs with regAccess := true }
  | .hostProtocol .msgAccess => { fs with msgAccess := true }
  | .hostProtocol .cmdWhileBusy => { fs with cmdWhileBusy := true }
  | .hostProtocol .writeWhileBusy => { fs with writeWhileBusy := true }
  | .uninitRead => { fs with uninitRead := true }

/-- r ∈ FAULT. -/
def FaultSet.has (fs : FaultSet) (r : Fault) : Bool :=
  match r with
  | .hostProtocol .regAccess => fs.regAccess
  | .hostProtocol .msgAccess => fs.msgAccess
  | .hostProtocol .cmdWhileBusy => fs.cmdWhileBusy
  | .hostProtocol .writeWhileBusy => fs.writeWhileBusy
  | .uninitRead => fs.uninitRead

end Sys2Proof.Machine
end

