-- ==== Sys2Proof/Machine/Primitives.lean ====
section
/-! DEFINITION. The word functions the engines are built from (40_primitives.md rules R100-R118). All are total.
`a +32 b` of R100 is `+` on Word; `&`, `|`, `⊕` and `~` of R101 are `&&&`, `|||`, `^^^` and `~~~`. -/

namespace Sys2Proof.Machine

/-- `shr(x, n)` for n ≤ 31: a logical right shift (R102). For n ≥ 32, which R102 leaves undefined and no engine uses, the
model gives 0: DESIGN CHOICE (notes/assumptions/21.md). -/
def shr (x : Word) (n : Nat) : Word := x >>> n

/-- `rotr(x, n)` for n ≤ 31: a right rotation (R103). For n ≥ 32 the model gives x: DESIGN CHOICE
(notes/assumptions/21.md). -/
def rotr (x : Word) (n : Nat) : Word := shr x n ||| (x <<< (32 - n))

/-- `rotl(x, n)` for n ≤ 31: a left rotation, the document's `leftrotate` (R104). For n ≥ 32 the model gives x: DESIGN
CHOICE (notes/assumptions/21.md). -/
def rotl (x : Word) (n : Nat) : Word := rotr x ((32 - n) % 32)

/-- `Ch(e, f, g)` (R105). -/
def ch (e f g : Word) : Word := (e &&& f) ^^^ (~~~e &&& g)

/-- `Maj(a, b, c)` (R106). -/
def maj (a b c : Word) : Word := (a &&& b) ^^^ (a &&& c) ^^^ (b &&& c)

/-- `Σ0(a)`, the document's `S0` (R107). -/
def bigSigma0 (a : Word) : Word := rotr a 2 ^^^ rotr a 13 ^^^ rotr a 22

/-- `Σ1(e)`, the document's `S1` (R108). -/
def bigSigma1 (e : Word) : Word := rotr e 6 ^^^ rotr e 11 ^^^ rotr e 25

/-- `σ0(x)` (R109). -/
def smallSigma0 (x : Word) : Word := rotr x 7 ^^^ rotr x 18 ^^^ shr x 3

/-- `σ1(x)` (R110). -/
def smallSigma1 (x : Word) : Word := rotr x 17 ^^^ rotr x 19 ^^^ shr x 10

/-- `F(B, C, D)`, rounds 0 to 15 (R111). -/
def md5F (b c d : Word) : Word := (b &&& c) ||| (~~~b &&& d)

/-- `G(B, C, D)`, rounds 16 to 31 (R112). -/
def md5G (b c d : Word) : Word := (d &&& b) ||| (~~~d &&& c)

/-- `Hf(B, C, D)`, rounds 32 to 47 (R113). -/
def md5H (b c d : Word) : Word := b ^^^ c ^^^ d

/-- `I(B, C, D)`, rounds 48 to 63 (R114). -/
def md5I (b c d : Word) : Word := c ^^^ (b ||| ~~~d)

/-- `be32([b0, b1, b2, b3])`: the first byte is most significant (R115). -/
def be32 (b0 b1 b2 b3 : Byte) : Word := b0 ++ b1 ++ b2 ++ b3

/-- `le32([b0, b1, b2, b3])`: the first byte is least significant (R116). -/
def le32 (b0 b1 b2 b3 : Byte) : Word := b3 ++ b2 ++ b1 ++ b0

/-- `be_bytes(v, n)` for v < 2^(8n): n bytes, most significant first (R117). Of a larger v the model takes the low 8n bits:
DESIGN CHOICE (notes/assumptions/21.md). -/
def beBytes (v : Nat) : Nat → List Byte
  | 0 => []
  | n + 1 => BitVec.ofNat 8 (v / 256 ^ n) :: beBytes v n

/-- `le_bytes(v, n)` for v < 2^(8n): n bytes, least significant first (R118). Of a larger v the model takes the low 8n bits:
DESIGN CHOICE (notes/assumptions/21.md). -/
def leBytes (v : Nat) : Nat → List Byte
  | 0 => []
  | n + 1 => BitVec.ofNat 8 v :: leBytes (v / 256) n

/-- The words of a byte sequence, four bytes each, first byte most significant (R57, R162). One to three bytes left
over, which no 64-byte block has, are dropped: DESIGN CHOICE (notes/assumptions/21.md). -/
def wordsBE : List Byte → List Word
  | b0 :: b1 :: b2 :: b3 :: rest => be32 b0 b1 b2 b3 :: wordsBE rest
  | _ => []

/-- The words of a byte sequence, four bytes each, first byte least significant (R57, R193). Bytes left over are
dropped: DESIGN CHOICE (notes/assumptions/21.md). -/
def wordsLE : List Byte → List Word
  | b0 :: b1 :: b2 :: b3 :: rest => le32 b0 b1 b2 b3 :: wordsLE rest
  | _ => []

end Sys2Proof.Machine
end

