-- ==== Sys2Proof/Machine/Memory.lean ====
section
/-! DEFINITION. The byte stores MSG and BLOCK: reading, writing and their canonical form (20_memory.md rules R53, R55,
R56; 10_state.md rule R36). -/

namespace Sys2Proof.Machine

/-- The byte at address `a`, or none when it is unwritten (R36). -/
def Memory.read (m : Memory) (a : Nat) : Option Byte :=
  match m with
  | [] => none
  | (k, v) :: rest => if k = a then some v else Memory.read rest a

/-- `MemWrite(a, 1, v)`: sets the byte and marks it written (R55), keeping the addresses strictly rising. -/
def Memory.write (m : Memory) (a : Nat) (v : Byte) : Memory :=
  match m with
  | [] => [(a, v)]
  | (k, w) :: rest =>
    if a < k then (a, v) :: (k, w) :: rest
    else if a = k then (a, v) :: rest
    else (k, w) :: Memory.write rest a v

/-- `MemRead(a, n)`: the n bytes from `a` on (R55), or none when one of them is unwritten (R36). -/
def Memory.readBytes (m : Memory) (a : Nat) : Nat → Option (List Byte)
  | 0 => some []
  | n + 1 =>
    match Memory.read m a, Memory.readBytes m (a + 1) n with
    | some b, some bs => some (b :: bs)
    | _, _ => none

/-- Writes consecutive bytes from `a` on (R55). -/
def Memory.writeBytes (m : Memory) (a : Nat) (bs : List Byte) : Memory :=
  match bs with
  | [] => m
  | b :: rest => Memory.writeBytes (Memory.write m a b) (a + 1) rest

/-- A 32-bit bus read: lane b carries the byte at a + b, little-endian (R55, R56, R58). -/
def Memory.readWord (m : Memory) (a : Nat) : Option Word :=
  match Memory.read m a, Memory.read m (a + 1), Memory.read m (a + 2), Memory.read m (a + 3) with
  | some b0, some b1, some b2, some b3 => some (le32 b0 b1 b2 b3)
  | _, _, _, _ => none

/-- A 32-bit bus write: the byte at a + b is v[8b+7:8b] (R55, R56, R58). -/
def Memory.writeWord (m : Memory) (a : Nat) (v : Word) : Memory := Memory.writeBytes m a (leBytes v.toNat 4)

/-- Every address of `m` is at least `lo`, and they rise strictly. -/
def Memory.risingFrom (lo : Nat) (m : Memory) : Bool :=
  match m with
  | [] => true
  | (k, _) :: rest => decide (lo ≤ k) && Memory.risingFrom (k + 1) rest

/-- The canonical form: addresses strictly rising. An unlisted address has no value, so no entry can equal it. -/
def Memory.wf (m : Memory) : Bool := Memory.risingFrom 0 m

/-- Every listed address is below `n`: 64 for BLOCK (R29), MSG_CAP for MSG (R53). -/
def Memory.within (n : Nat) (m : Memory) : Bool := m.all fun c => decide (c.1 < n)

end Sys2Proof.Machine
end

