-- ==== Sys2Proof/Machine/Padder.lean ====
section
/-! DEFINITION. The message padder as a function (41_padder.md rules R140-R148). The commands PADBLK_SHA and PADBLK_MD5
are in Machine/PadderCommands.lean. -/

namespace Sys2Proof.Machine

/-- The byte order of the length suffix: BE for SHA-256, LE for MD5 (R141). -/
inductive Endian where
  | be
  | le
  deriving DecidableEq, Repr

/-- `k(L) = (55 − L) mod 64`, on mathematical integers (R140). -/
def zeroFill (len : Nat) : Nat := ((55 - (len : Int)) % 64).toNat

/-- `nblk(L) = (L + 8) / 64 + 1` (R143). -/
def nblk (len : Nat) : Nat := (len + 8) / 64 + 1

/-- `bitLen(L) = (8 · L) mod 2^64` (R142; 90_conflicts.md C5). -/
def bitLen (len : Nat) : Nat := (8 * len) % 2 ^ 64

/-- `suffix_E(L)`: the eight bytes of the bit length (R141). -/
def lengthSuffix (e : Endian) (len : Nat) : List Byte :=
  match e with
  | .be => beBytes (bitLen len) 8
  | .le => leBytes (bitLen len) 8

/-- `pad_E(m) = m ++ [0x80] ++ zeros(k(L)) ++ suffix_E(L)` (R141). -/
def pad (e : Endian) (m : List Byte) : List Byte :=
  m ++ [0x80#8] ++ List.replicate (zeroFill m.length) 0#8 ++ lengthSuffix e m.length

/-- Byte `p` of the padding of an L-byte message, for L ≤ p: the last three cases of `padbyte_E` (R144). -/
def padByte (e : Endian) (len p : Nat) : Byte :=
  if p = len then 0x80#8
  else if p < 64 * nblk len - 8 then 0#8
  else (lengthSuffix e len).getD (p - (64 * nblk len - 8)) 0#8

/-- Block `j` of the padding of an L-byte message, given the message bytes `seg` that fall into the block, those from
64j on (R144, R146): byte t is the message's while p = 64j + t < L, and padding after it. (Irreducible, as the other long
computations are: a definitional equality of two states must not run them.) For j ≥ nblk(L), no block of the padding, and
for a missing segment byte the model gives zeros: DESIGN CHOICE (notes/assumptions/21.md). -/
@[irreducible] def padBlock (e : Endian) (len j : Nat) (seg : List Byte) : List Byte :=
  (List.range 64).map fun t =>
    if 64 * j + t < len then seg.getD t 0#8 else padByte e len (64 * j + t)

/-- The first `n` 64-byte blocks of a padded message, in increasing j (R71, R167, R197). -/
def blocksOf : Nat → List Byte → List (List Byte)
  | 0, _ => []
  | n + 1, p => p.take 64 :: blocksOf n (p.drop 64)

/-- The blocks of `pad_E(m)`: N = nblk(len(m)) of them (R143, R167, R197). -/
def paddedBlocks (e : Endian) (m : List Byte) : List (List Byte) := blocksOf (nblk m.length) (pad e m)

end Sys2Proof.Machine
end

