-- ==== Sys2Proof/Machine/Operands.lean ====
section
/-! DEFINITION. What a command reads, and the checks that reading makes, in the order of 60_exceptions.md rule R266:
CAPACITY, INDEX, then the UninitRead fault. (ILLEGAL is decode's: Decode.lean.) -/

namespace Sys2Proof.Machine

/-- How a command ends when it does not succeed: an error code (`raise`), or a fault (R12, R242). -/
inductive Stop where
  | raised (e : ErrCode)
  | faulted (r : Fault)
  deriving DecidableEq, Repr

/-- The bytes a command needs, or the UninitRead fault when one of them is unwritten (R36, R270). -/
def needBytes (m : Memory) (a n : Nat) : Except Stop (List Byte) :=
  match m.readBytes a n with
  | some bs => .ok bs
  | none => .error (.faulted .uninitRead)

/-- BLOCK[0..63] (R170, R200). -/
def blockOperand (s : State) : Except Stop (List Byte) := needBytes s.block 0 64

/-- MSG[0..LEN), after the CAPACITY check (R149, R171, R201, R226, R262). -/
def messageOperand (s : State) : Except Stop (List Byte) :=
  if s.cfg.msgCap < s.len.toNat then .error (.raised .capacity) else needBytes s.msg 0 s.len.toNat

/-- The segment MSG[64j .. min(LEN, 64j+64)), after the CAPACITY and INDEX checks (R146, R262, R263); empty when the
block lies wholly past LEN. -/
def segmentOperand (s : State) (j : DWord) : Except Stop (List Byte) :=
  if s.cfg.msgCap < s.len.toNat then .error (.raised .capacity)
  else if nblk s.len.toNat ≤ j.toNat then .error (.raised .index)
  else needBytes s.msg (64 * j.toNat) (min s.len.toNat (64 * j.toNat + 64) - 64 * j.toNat)

end Sys2Proof.Machine
end

