-- ==== Sys2Proof/Machine/Ops.lean ====
section
/-! DEFINITION. The named operations over the state: how a command ends (45_control.md rules R242, R245;
60_exceptions.md rules R260-R271), reset (70_reset_and_hazards.md rules R290, R292), and the free values.

"Taking an exception" is, on this hardware, `raise`: it writes STATUS.ERR and nothing else, saves nothing and goes
nowhere (R260, R265, R267). "Returning" needs no instruction: the next completion overwrites ERR (R268). -/

namespace Sys2Proof.Machine

/-- `raise E`: ERR becomes the code of E and nothing else changes (R265, R267). -/
def State.raise (s : State) (e : ErrCode) : State := { s with err := e }

/-- Success: ERR becomes 0 (R245, R264). The return from an error: no other state holds one (R268). -/
def State.succeed (s : State) : State := { s with err := .ok }

/-- FAULT <- FAULT ∪ {r} (R242, R270). -/
def State.recordFault (s : State) (r : Fault) : State := { s with fault := s.fault.add r }

/-- The n-th free value from the state's next one on. -/
def State.draw (s : State) (n : Nat) : Word := Config.freeWord (s.draws + n)

/-- Free values for ERR, after a command that faulted (U17; notes/assumptions/6.md). -/
def State.scrambleErr (s : State) : State := { s with err := ErrCode.ofFree (s.draw 0), draws := s.draws + 1 }

/-- Free values for H, after a SHA command that faulted (U17; notes/assumptions/6.md). -/
def State.scrambleH (s : State) : State :=
  { s with
    h := { a := s.draw 0, b := s.draw 1, c := s.draw 2, d := s.draw 3, e := s.draw 4, f := s.draw 5, g := s.draw 6,
           h := s.draw 7 }
    draws := s.draws + 8 }

/-- Free values for S, after an MD5 command that faulted (U17; notes/assumptions/6.md). -/
def State.scrambleS (s : State) : State :=
  { s with s := { a := s.draw 0, b := s.draw 1, c := s.draw 2, d := s.draw 3 }, draws := s.draws + 4 }

/-- A free value for ACC, DJB_W bits of it, after a DJB command that faulted (U17; notes/assumptions/6.md). -/
def State.scrambleAcc (s : State) : State :=
  { s with acc := djbReduce s.cfg (s.draw 0 ++ s.draw 1), draws := s.draws + 2 }

/-- The next `n` free bytes. -/
@[irreducible] def State.freeBytes (s : State) (n : Nat) : List Byte := (List.range n).map fun t => (s.draw t).setWidth 8

/-- Free values for BLOCK, after a PADBLK command that faulted (U17; notes/assumptions/6.md). -/
def State.scrambleBlock (s : State) : State :=
  { s with block := s.block.writeBytes 0 (s.freeBytes 64), draws := s.draws + 64 }

/-- How `execute` ends (R242): success applies `write` to the operand and clears ERR; a raised error changes ERR alone
(R265); a fault is recorded, and what the command would have written (`scramble`) and ERR become free. -/
def complete (s : State) (operand : Except Stop (List Byte)) (write : List Byte → State) (scramble : State → State) :
    Host.Outcome State Fault Refusal :=
  match operand with
  | .ok bs => .next (write bs).succeed
  | .error (.raised e) => .next (s.raise e)
  | .error (.faulted r) => .next (scramble (s.recordFault r)).scrambleErr

/-- BLOCK[0..63] <- bs, every byte marked written (R29, R146). -/
def State.setBlock (s : State) (bs : List Byte) : State := { s with block := s.block.writeBytes 0 bs }

/-- Reset (R290, R292): one atomic step. A pending command is discarded; FAULT is sticky (R271) and the parameters are
constant. Of the model's own fields, the count of draws and the agenda go on and the bus returns nothing
(notes/assumptions/17.md). -/
def State.applyReset (s : State) : State :=
  { State.resetWith s.cfg with fault := s.fault, draws := s.draws, agenda := s.agenda }

end Sys2Proof.Machine
end

