-- ==== Sys2Proof/Machine/Control.lean ====
section
/-! DEFINITION. The control command NOP, and Illegal (45_control.md rules R243, R244). -/

namespace Sys2Proof.Machine

/-- NOP: STATUS.ERR <- 0 and nothing else (R243). -/
def execNop (s : State) : Host.Outcome State Fault Refusal := .next s.succeed

/-- Illegal: `raise ILLEGAL`, always; it reads neither LEN, MSG nor BLOCK (R244, R261, R266). -/
def execIllegal (s : State) : Host.Outcome State Fault Refusal := .next (s.raise .illegal)

end Sys2Proof.Machine
end

