-- ==== Sys2Proof/Machine/DjbCommands.lean ====
section
/-! DEFINITION. The DJB2 commands (44_djb2.md rules R224-R226). -/

namespace Sys2Proof.Machine

/-- DJB_INIT: ACC <- 5381 (R224). -/
def execDjbInit (s : State) : Host.Outcome State Fault Refusal := .next { s with acc := djbSeed }.succeed

/-- DJB_BYTE b: ACC <- djb_step(ACC, b) (R225). -/
def execDjbByte (b : Byte) (s : State) : Host.Outcome State Fault Refusal :=
  .next { s with acc := djbStep s.cfg s.acc b }.succeed

/-- DJB_MSG: ACC <- djb2(MSG[0..LEN)), from 5381; it does not pad (R226). -/
def execDjbMsg (s : State) : Host.Outcome State Fault Refusal :=
  complete s (messageOperand s) (fun m => { s with acc := djb2 s.cfg m }) State.scrambleAcc

end Sys2Proof.Machine
end

