-- ==== Sys2Proof/Machine/Md5Engine.lean ====
section
/-! DEFINITION. The MD5 engine as functions (43_md5.md rules R193-R198). Its commands are in Machine/Md5Commands.lean.
The working registers and message words are local values (10_state.md rule R31). -/

namespace Sys2Proof.Machine

/-- `fn_i(B, C, D)`: the function of round i in 0..63 (R194); the last range's for a larger i: DESIGN CHOICE
(notes/assumptions/21.md). -/
def md5Fn (i : Nat) (b c d : Word) : Word :=
  if i < 16 then md5F b c d
  else if i < 32 then md5G b c d
  else if i < 48 then md5H b c d
  else md5I b c d

/-- `g(i)`: the message index of round i in 0..63 (R194); the last range's for a larger i: DESIGN CHOICE
(notes/assumptions/21.md). -/
def md5Index (i : Nat) : Nat :=
  if i < 16 then i
  else if i < 32 then (5 * i + 1) % 16
  else if i < 48 then (3 * i + 5) % 16
  else (7 * i) % 16

/-- One round (R195): the update is simultaneous. -/
def md5Round (i : Nat) (r : Md5Regs) (m : List Word) : Md5Regs :=
  let f := md5Fn i r.b r.c r.d + r.a + kMd5 i + m.getD (md5Index i) 0
  { a := r.d, b := r.b + rotl f (shiftAmount i), c := r.b, d := r.c }

/-- Rounds 0 to n−1 over the message words `m` (R196). -/
def md5Rounds (m : List Word) (r : Md5Regs) : Nat → Md5Regs
  | 0 => r
  | n + 1 => md5Round n (md5Rounds m r n) m

/-- The feed-forward: the elementwise sum mod 2^32 (R196). -/
def Md5Regs.add (x y : Md5Regs) : Md5Regs := { a := x.a + y.a, b := x.b + y.b, c := x.c + y.c, d := x.d + y.d }

/-- `md5_mix(blk, Sin)` (R196), over the little-endian words of the block (R193). -/
@[irreducible] def md5Mix (blk : List Byte) (sin : Md5Regs) : Md5Regs := sin.add (md5Rounds (wordsLE blk) sin 64)

/-- `md5_state(m)` (R197): from IV_MD5, the blocks of pad_LE(m) in increasing j. -/
def md5State (m : List Byte) : Md5Regs := (paddedBlocks .le m).foldl (fun s blk => md5Mix blk s) ivMd5

/-- `md5_digest_bytes(S)`: the state words little-endian, 16 bytes (R198). -/
def md5DigestBytes (s : Md5Regs) : List Byte :=
  leBytes s.a.toNat 4 ++ leBytes s.b.toNat 4 ++ leBytes s.c.toNat 4 ++ leBytes s.d.toNat 4

end Sys2Proof.Machine
end

