-- ==== Sys2Proof/Machine/Md5Commands.lean ====
section
/-! DEFINITION. The MD5 commands (43_md5.md rules R199-R201). -/

namespace Sys2Proof.Machine

/-- MD5_INIT: S[k] <- IV_MD5[k] (R199). -/
def execMd5Init (s : State) : Host.Outcome State Fault Refusal := .next { s with s := ivMd5 }.succeed

/-- MD5_BLOCK: S <- md5_mix(BLOCK, S) (R200). -/
def execMd5Block (s : State) : Host.Outcome State Fault Refusal :=
  complete s (blockOperand s) (fun blk => { s with s := md5Mix blk s.s }) State.scrambleS

/-- MD5_MSG: S <- md5_state(MSG[0..LEN)), from IV_MD5 (R201). -/
def execMd5Msg (s : State) : Host.Outcome State Fault Refusal :=
  complete s (messageOperand s) (fun m => { s with s := md5State m }) State.scrambleS

end Sys2Proof.Machine
end

