-- ==== Sys2Proof/Machine/PadderCommands.lean ====
section
/-! DEFINITION. The padder's commands (41_padder.md rules R146, R147). -/

namespace Sys2Proof.Machine

/-- PADBLK of either byte order: BLOCK <- block j of pad_E of the message (R144, R146, R147). -/
def padBlockCommand (e : Endian) (j : DWord) (s : State) : Host.Outcome State Fault Refusal :=
  complete s (segmentOperand s j) (fun seg => s.setBlock (padBlock e s.len.toNat j.toNat seg)) State.scrambleBlock

/-- PADBLK_SHA j: the big-endian suffix (R146). -/
def execPadblkSha (j : DWord) (s : State) : Host.Outcome State Fault Refusal := padBlockCommand .be j s

/-- PADBLK_MD5 j: the little-endian suffix (R147). -/
def execPadblkMd5 (j : DWord) (s : State) : Host.Outcome State Fault Refusal := padBlockCommand .le j s

end Sys2Proof.Machine
end

