-- ==== Sys2Proof/Machine/ShaEngine.lean ====
section
/-! DEFINITION. The SHA-256 engine as functions (42_sha256.md rules R162-R168, R172). Its commands are in
Machine/ShaCommands.lean. The working registers and the schedule are local values (10_state.md rule R31). -/

namespace Sys2Proof.Machine

/-- The next schedule word, from the words so far, NEWEST FIRST: w[t−2] is entry 1, w[t−7] entry 6, w[t−15] entry 14,
w[t−16] entry 15 (R163). -/
def nextScheduleWord (ws : List Word) : Word :=
  ws.getD 15 0 + smallSigma0 (ws.getD 14 0) + ws.getD 6 0 + smallSigma1 (ws.getD 1 0)

/-- `n` more schedule words, the newest first (R163). -/
def extendSchedule : Nat → List Word → List Word
  | 0, ws => ws
  | n + 1, ws => extendSchedule n (nextScheduleWord ws :: ws)

/-- The schedule w[0..63] of a 64-byte block: w[0..15] by R162, w[16..63] by R163. A word missing from a shorter block
counts as 0, here and in the MD5 rounds: DESIGN CHOICE (notes/assumptions/21.md). -/
def schedule (blk : List Byte) : List Word := (extendSchedule 48 (wordsBE blk).reverse).reverse

/-- One round (R164): the update is simultaneous, every right-hand side reads the registers from before it. -/
def shaRound (i : Nat) (r : ShaRegs) (w : Word) : ShaRegs :=
  let t1 := r.h + bigSigma1 r.e + ch r.e r.f r.g + kSha i + w
  let t2 := bigSigma0 r.a + maj r.a r.b r.c
  { a := t1 + t2, b := r.a, c := r.b, d := r.c, e := r.d + t1, f := r.e, g := r.f, h := r.g }

/-- Rounds 0 to n−1 over the schedule `w` (R166). -/
def shaRounds (w : List Word) (r : ShaRegs) : Nat → ShaRegs
  | 0 => r
  | n + 1 => shaRound n (shaRounds w r n) (w.getD n 0)

/-- The feed-forward: the elementwise sum mod 2^32 (R166). -/
def ShaRegs.add (x y : ShaRegs) : ShaRegs :=
  { a := x.a + y.a, b := x.b + y.b, c := x.c + y.c, d := x.d + y.d,
    e := x.e + y.e, f := x.f + y.f, g := x.g + y.g, h := x.h + y.h }

/-- `sha_compress(blk, Hin)` (R166). -/
@[irreducible] def shaCompress (blk : List Byte) (hin : ShaRegs) : ShaRegs := hin.add (shaRounds (schedule blk) hin 64)

/-- `sha256_state(m)` (R167): from IV_SHA, the blocks of pad_BE(m) in increasing j. -/
def sha256State (m : List Byte) : ShaRegs := (paddedBlocks .be m).foldl (fun h blk => shaCompress blk h) ivSha

/-- `sha_digest(H)`: the state words big-endian, 32 bytes (R168). -/
def shaDigest (h : ShaRegs) : List Byte :=
  beBytes h.a.toNat 4 ++ beBytes h.b.toNat 4 ++ beBytes h.c.toNat 4 ++ beBytes h.d.toNat 4 ++
    beBytes h.e.toNat 4 ++ beBytes h.f.toNat 4 ++ beBytes h.g.toNat 4 ++ beBytes h.h.toNat 4

end Sys2Proof.Machine
end

