-- ==== Sys2Proof/Machine/ShaCommands.lean ====
section
/-! DEFINITION. The SHA-256 commands (42_sha256.md rules R169-R171). -/

namespace Sys2Proof.Machine

/-- SHA_INIT: H[k] <- IV_SHA[k] (R169). -/
def execShaInit (s : State) : Host.Outcome State Fault Refusal := .next { s with h := ivSha }.succeed

/-- SHA_BLOCK: H <- sha_compress(BLOCK, H); it neither implies SHA_INIT nor checks the padding (R170). -/
def execShaBlock (s : State) : Host.Outcome State Fault Refusal :=
  complete s (blockOperand s) (fun blk => { s with h := shaCompress blk s.h }) State.scrambleH

/-- SHA_MSG: H <- sha256_state(MSG[0..LEN)), from IV_SHA; BLOCK is unchanged (R171). -/
def execShaMsg (s : State) : Host.Outcome State Fault Refusal :=
  complete s (messageOperand s) (fun m => { s with h := sha256State m }) State.scrambleH

end Sys2Proof.Machine
end

