-- ==== Sys2Proof/Machine/Dispatch.lean ====
section
/-! DEFINITION. `execute` of 45_control.md rule R242: one arm per command. -/

namespace Sys2Proof.Machine

def exec (i : Instr) (s : State) : Host.Outcome State Fault Refusal :=
  match i with
  | .nop => Sys2Proof.Machine.execNop s
  | .shaInit => Sys2Proof.Machine.execShaInit s
  | .shaBlock => Sys2Proof.Machine.execShaBlock s
  | .shaMsg => Sys2Proof.Machine.execShaMsg s
  | .padblkSha j => Sys2Proof.Machine.execPadblkSha j s
  | .md5Init => Sys2Proof.Machine.execMd5Init s
  | .md5Block => Sys2Proof.Machine.execMd5Block s
  | .md5Msg => Sys2Proof.Machine.execMd5Msg s
  | .padblkMd5 j => Sys2Proof.Machine.execPadblkMd5 j s
  | .djbInit => Sys2Proof.Machine.execDjbInit s
  | .djbByte b => Sys2Proof.Machine.execDjbByte b s
  | .djbMsg => Sys2Proof.Machine.execDjbMsg s

end Sys2Proof.Machine
end

