-- ==== Sys2Proof/Machine/Completion.lean ====
section
/-! DEFINITION. The completion step of the core agent (45_control.md rules R241, R242): what `step` does on the core's
turn. -/

namespace Sys2Proof.Machine

/-- PEND <- none, and so STATUS.BUSY <- 0 (R242). -/
def State.release (s : State) : State := { s with pend := none }

/-- Decode at completion, then execute (R241, R242). -/
def completeWord (c : Word) (s : State) : Host.Outcome State Fault Refusal :=
  match decode c with
  | .ok i => exec i s.release
  | .error _ => execIllegal s.release

/-- The core's turn: it completes the pending command; while idle it takes no step and keeps all state (R242, R278;
notes/assumptions/3.md). -/
def coreTurn (s : State) : Host.Outcome State Fault Refusal :=
  match s.pend with
  | some c => completeWord c s
  | none => .next s

end Sys2Proof.Machine
end

