-- ==== Sys2Proof/Machine/HostPort.lean ====
section
/-! DEFINITION. The host's accesses: the REG space and its map (20_memory.md rules R51, R52, R58-R61), the MSG space
(R53-R56), and what the host may do while a command is pending (R70; 70_reset_and_hazards.md rules R294-R296). -/

namespace Sys2Proof.Machine

/-- The registers of the REG map (R60). -/
inductive Reg where
  | cmd
  | status
  | lenLo
  | lenHi
  | nblk
  | cap
  | djbLo
  | djbHi
  | shaH (k : Fin 8)
  | md5 (k : Fin 4)
  | blockW (k : Fin 16)
  deriving DecidableEq, Repr

/-- The register at word index `i`, offset 4i, or none where R60 maps none. -/
def regAtIndex (i : Nat) : Option Reg :=
  if i = 0 then some .cmd
  else if i = 1 then some .status
  else if i = 2 then some .lenLo
  else if i = 3 then some .lenHi
  else if i = 4 then some .nblk
  else if i = 5 then some .cap
  else if i = 6 then some .djbLo
  else if i = 7 then some .djbHi
  else if h : 8 ≤ i ∧ i < 16 then some (.shaH ⟨i - 8, by omega⟩)
  else if h : 16 ≤ i ∧ i < 20 then some (.md5 ⟨i - 16, by omega⟩)
  else if h : 32 ≤ i ∧ i < 48 then some (.blockW ⟨i - 32, by omega⟩)
  else none

/-- The REG map, for an offset that is a multiple of 4 (R60). -/
def regAt (off : BitVec 12) : Option Reg := regAtIndex (off.toNat / 4)

/-- The offset of each register (R60). -/
def Reg.offset (r : Reg) : Nat :=
  match r with
  | .cmd => 0x000
  | .status => 0x004
  | .lenLo => 0x008
  | .lenHi => 0x00C
  | .nblk => 0x010
  | .cap => 0x014
  | .djbLo => 0x018
  | .djbHi => 0x01C
  | .shaH k => 0x020 + 4 * k.val
  | .md5 k => 0x040 + 4 * k.val
  | .blockW k => 0x080 + 4 * k.val

/-- H[k] (R27). -/
def ShaRegs.get (r : ShaRegs) (k : Fin 8) : Word :=
  match k with
  | 0 => r.a
  | 1 => r.b
  | 2 => r.c
  | 3 => r.d
  | 4 => r.e
  | 5 => r.f
  | 6 => r.g
  | 7 => r.h

/-- S[k] (R28). -/
def Md5Regs.get (r : Md5Regs) (k : Fin 4) : Word :=
  match k with
  | 0 => r.a
  | 1 => r.b
  | 2 => r.c
  | 3 => r.d

/-- NBLK: combinational in LEN (R24). -/
def State.nblkWord (s : State) : Word := BitVec.ofNat 32 (nblk s.len.toNat)

/-- DJB_HI: ACC[63:32], or 0 when DJB_W = 32 (R26). -/
def State.djbHiWord (s : State) : Word :=
  match s.cfg.djbWidth with
  | .w32 => 0
  | .w64 => s.acc.extractLsb' 32 32

/-- What a register holds, or none when BLOCK_Wk includes an unwritten byte (R21-R29, R58, R60). -/
def State.regValue (s : State) (r : Reg) : Option Word :=
  match r with
  | .cmd => some 0
  | .status => some s.statusWord
  | .lenLo => some (s.len.extractLsb' 0 32)
  | .lenHi => some (s.len.extractLsb' 32 32)
  | .nblk => some s.nblkWord
  | .cap => some (BitVec.ofNat 32 s.cfg.msgCap)
  | .djbLo => some (s.acc.extractLsb' 0 32)
  | .djbHi => some s.djbHiWord
  | .shaH k => some (s.h.get k)
  | .md5 k => some (s.s.get k)
  | .blockW k => s.block.readWord (4 * k.val)

/-- The host read returned `v`; no other state changes (R61). -/
def State.returns (s : State) (v : BusValue) : State := { s with bus := some v }

/-- A host write returns nothing. -/
def State.returnsNothing (s : State) : State := { s with bus := none }

/-- A host access that faults: the reason is recorded and the access has no other effect (R270). -/
def State.accessFault (s : State) (r : Fault) : State := (s.recordFault r).returnsNothing

/-- A read that returns `any`: a fresh draw (R296; notes/assumptions/7.md). -/
def State.returnsAny (s : State) : State := { s.returns (.word (s.draw 0)) with draws := s.draws + 1 }

/-- A register read while a command is pending, of a register that holds `v`: `any`, whatever it holds (R70, R296); a word
with an unwritten byte faults as at any time (R36; notes/assumptions/9.md). -/
def State.busyRead (s : State) (v : Option Word) : State :=
  match v with
  | some _ => s.returnsAny
  | none => (s.recordFault .uninitRead).returnsAny

/-- A REG access is 32 bits wide and at a multiple of 4 (R52). -/
def regAccessOk (bits : Nat) (off : BitVec 12) : Bool := bits == 32 && off.toNat % 4 == 0

/-- The legal MSG accesses (R54). -/
def msgAccessOk (s : State) (bits a : Nat) : Bool :=
  (bits == 8 && decide (a < s.cfg.msgCap)) || (bits == 32 && a % 4 == 0 && decide (a + 3 < s.cfg.msgCap))

/-- A read that gives a value, or the UninitRead fault where a byte is unwritten (R36, R55). -/
def State.returnsOrFaults (s : State) (v : Option BusValue) : State :=
  match v with
  | some x => s.returns x
  | none => s.accessFault .uninitRead

/-- RegRead (R52, R59, R70): unmapped offsets read 0; while a command is pending STATUS alone reads exactly and every
other mapped register returns `any` (R296; notes/assumptions/8.md, notes/assumptions/9.md). -/
def regRead (s : State) (bits : Nat) (off : BitVec 12) : State :=
  if regAccessOk bits off then
    match regAt off with
    | none => s.returns (.word 0)
    | some .status => s.returns (.word s.statusWord)
    | some r => if s.busy then s.busyRead (s.regValue r) else s.returnsOrFaults ((s.regValue r).map .word)
  else s.accessFault (.hostProtocol .regAccess)

/-- Issue: PEND <- c when PEND = none; the word is not decoded (R240). While a command is pending it is a fault and the
written word is dropped (R294). -/
def writeCmd (s : State) (c : Word) : State :=
  if s.busy then s.accessFault (.hostProtocol .cmdWhileBusy) else { s with pend := some c }.returnsNothing

/-- A write to an input of the commands: a fault with no effect while one is pending (R295). -/
def writeInput (s : State) (written : State) : State :=
  if s.busy then s.accessFault (.hostProtocol .writeWhileBusy) else written.returnsNothing

/-- LEN with its low half replaced (R23). -/
def State.setLenLo (s : State) (v : Word) : State := { s with len := s.len.extractLsb' 32 32 ++ v }

/-- LEN with its high half replaced (R23). -/
def State.setLenHi (s : State) (v : Word) : State := { s with len := v ++ s.len.extractLsb' 0 32 }

/-- RegWrite (R52, R59): read-only registers and unmapped offsets ignore the write. -/
def regWrite (s : State) (bits : Nat) (off : BitVec 12) (v : Word) : State :=
  if regAccessOk bits off then
    match regAt off with
    | some .cmd => writeCmd s v
    | some .lenLo => writeInput s (s.setLenLo v)
    | some .lenHi => writeInput s (s.setLenHi v)
    | some (.blockW k) => writeInput s { s with block := s.block.writeWord (4 * k.val) v }
    | some .status | some .nblk | some .cap | some .djbLo | some .djbHi | some (.shaH _) | some (.md5 _) | none =>
      s.returnsNothing
  else s.accessFault (.hostProtocol .regAccess)

/-- MsgRead8 and MsgRead32 (R54, R55). MSG reads exactly while a command is pending (R70). -/
def msgRead (s : State) (bits a : Nat) : State :=
  if msgAccessOk s bits a then
    if bits = 8 then s.returnsOrFaults ((s.msg.read a).map .byte) else s.returnsOrFaults ((s.msg.readWord a).map .word)
  else s.accessFault (.hostProtocol .msgAccess)

/-- MsgWrite8 and MsgWrite32 (R54, R55). -/
def msgWrite (s : State) (bits a : Nat) (v : Word) : State :=
  if msgAccessOk s bits a then
    writeInput s
      { s with msg := if bits = 8 then s.msg.write a (v.setWidth 8) else s.msg.writeWord a v }
  else s.accessFault (.hostProtocol .msgAccess)

/-- One host access, one step (R62). The form of the access is checked before the core's state
(notes/assumptions/10.md). -/
def hostAccess (s : State) (x : HostAccess) : State :=
  match x with
  | .regRead bits off => regRead s bits off
  | .regWrite bits off v => regWrite s bits off v
  | .msgRead bits a => msgRead s bits a
  | .msgWrite bits a v => msgWrite s bits a v

end Sys2Proof.Machine
end

