-- ==== Sys2Proof/Machine/Step.lean ====
section
/-! DEFINITION. One step of the machine (00_scope.md rule R6): the core, the host or reset moves, as the agenda says. -/

namespace Sys2Proof.Machine

/-- What the head of the agenda does, on the state whose agenda is the rest. -/
def act (e : Event) (s : State) : Host.Outcome State Fault Refusal :=
  match e with
  | .core => coreTurn s
  | .host x => .next (hostAccess s x)
  | .reset => .next s.applyReset

/-- One step: the agenda's next event, and the core's turn once the agenda is exhausted (R6, R63, R297;
notes/assumptions/2.md). -/
def step (s : State) : Host.Outcome State Fault Refusal :=
  match s.agenda with
  | [] => coreTurn s
  | e :: rest => act e { s with agenda := rest }

/-- `s` with the command word of `nbits` bits pending and the next turn the core's, so that the very next step completes
it. It stands for the host's issue (R240; notes/assumptions/4.md). -/
def State.withFetchWord (s : State) (nbits w : Nat) : State :=
  { s with pend := some (BitVec.ofNat 32 (w % 2 ^ nbits)), agenda := .core :: s.agenda }

end Sys2Proof.Machine
end

