-- ==== Sys2Proof/Machine/HostProgram.lean ====
section
/-! DEFINITION. The pseudo-instructions of the host-program syntax (30_encoding.md rules R89, R90), as lists of events.
A `wait` of R90 polls STATUS until BUSY = 0: how often it polls before the core completes is free (R297), so it is an
argument. -/

namespace Sys2Proof.Machine

/-- `wr NAME, v` at the register's offset (R89). -/
def wrReg (off : BitVec 12) (v : Word) : Event := .host (.regWrite 32 off v)

/-- `rd NAME` (R89). -/
def rdReg (off : BitVec 12) : Event := .host (.regRead 32 off)

/-- `wr8 MSG[a], v` (R89). -/
def wr8 (a : Nat) (v : Byte) : Event := .host (.msgWrite 8 a (v.setWidth 32))

/-- `wr32 MSG[a], v` (R89). -/
def wr32 (a : Nat) (v : Word) : Event := .host (.msgWrite 32 a v)

/-- `wait`, when the core completes after `polls` reads of STATUS: those reads show BUSY = 1, the last shows 0 (R90). -/
def waitFor (polls : Nat) : List Event := List.replicate polls (rdReg 0x004#12) ++ [.core, rdReg 0x004#12]

/-- `do X` = `wr CMD, enc(X); wait` (R90). -/
def doCommand (polls : Nat) (i : Instr) : List Event := wrReg 0x000#12 (encode i) :: waitFor polls

/-- `setlen n` (R90). -/
def setLen (n : DWord) : List Event := [wrReg 0x008#12 (n.extractLsb' 0 32), wrReg 0x00C#12 (n.extractLsb' 32 32)]

/-- The byte writes of `load s`, from address `a` on (R90). -/
def loadBytes (a : Nat) : List Byte → List Event
  | [] => []
  | b :: rest => wr8 a b :: loadBytes (a + 1) rest

/-- `load s` (R90). -/
def load (m : List Byte) : List Event := loadBytes 0 m ++ setLen (BitVec.ofNat 64 m.length)

/-- `sha256_hex s`, up to the reads; `hexLower` and `shaDigest` of Machine/Render.lean and Machine/ShaEngine.lean render the
eight words (R90, R137, R168). -/
def sha256HexProgram (polls : Nat) (m : List Byte) : List Event :=
  load m ++ doCommand polls .shaMsg ++
    [rdReg 0x020#12, rdReg 0x024#12, rdReg 0x028#12, rdReg 0x02C#12, rdReg 0x030#12, rdReg 0x034#12, rdReg 0x038#12,
      rdReg 0x03C#12]

/-- `md5_digest s`, up to the reads; `md5DigestBytes` of Machine/Md5Engine.lean gives the bytes of the four words (R90,
R198). -/
def md5DigestProgram (polls : Nat) (m : List Byte) : List Event :=
  load m ++ doCommand polls .md5Msg ++ [rdReg 0x040#12, rdReg 0x044#12, rdReg 0x048#12, rdReg 0x04C#12]

/-- The last step of `djb2 s`: ACC from the words read at DJB_LO and DJB_HI, bitcat(DJB_HI, DJB_LO) when DJB_W = 64 and
DJB_LO when DJB_W = 32 (R90). -/
def djb2Value (c : Config) (lo hi : Word) : DWord :=
  match c.djbWidth with
  | .w32 => lo.setWidth 64
  | .w64 => hi ++ lo

/-- `djb2 s`, up to the two reads; `djb2Value` assembles what they return, and `decimal` renders it (R90, R138). -/
def djb2Program (polls : Nat) (m : List Byte) : List Event :=
  load m ++ doCommand polls .djbMsg ++ [rdReg 0x018#12, rdReg 0x01C#12]

end Sys2Proof.Machine
end

