-- ==== Sys2Proof/Machine/Render.lean ====
section
/-! DEFINITION. The host's observation functions (40_primitives.md rules R137-R139; 42_sha256.md rule R168; 43_md5.md rule
R198). The hardware does none of this: they define what a claim about a digest's text observes. -/

namespace Sys2Proof.Machine

/-- The alphabet of R137. -/
def hexDigits : List Char := ['0', '1', '2', '3', '4', '5', '6', '7', '8', '9', 'a', 'b', 'c', 'd', 'e', 'f']

/-- The two characters of a byte, high nibble first (R137). -/
def hexByte (b : Byte) : List Char := [hexDigits.getD (b.toNat / 16) '0', hexDigits.getD (b.toNat % 16) '0']

/-- `hexlower(s)`, as its characters (R137). -/
def hexLower (s : List Byte) : List Char := s.flatMap hexByte

/-- `decimal(n)`, as its characters: base 10, no sign, no leading zero (R138). -/
def decimal (n : Nat) : List Char := Nat.toDigits 10 n

/-- `sha256_hex(m)`: 64 characters (R168). -/
def sha256Hex (m : List Byte) : List Char := hexLower (shaDigest (sha256State m))

/-- The hex form of the MD5 digest of m: 32 characters (R198). -/
def md5Hex (m : List Byte) : List Char := hexLower (md5DigestBytes (md5State m))

end Sys2Proof.Machine
end

