-- ==== Sys2Proof/Safety.lean ====
section
/-! DEFINITION. The terms claims are stated in: the good end of a run (70_reset_and_hazards.md rule R300), the legal states,
whose turn it is, and sequences of commands (42_sha256.md rule R170; 43_md5.md rule R200; 44_djb2.md rule R226). -/

namespace Sys2Proof.Machine

/-- The observation at the end of a run (R300). -/
structure Observation where
  status : Word
  len : DWord
  h : ShaRegs
  s : Md5Regs
  acc : DWord
  block : Memory
  msg : Memory
  fault : FaultSet
  deriving DecidableEq, Repr

/-- The tuple (STATUS, LEN, H, S, ACC, BLOCK, MSG, FAULT) of R300. -/
def State.observe (s : State) : Observation :=
  { status := s.statusWord, len := s.len, h := s.h, s := s.s, acc := s.acc, block := s.block, msg := s.msg,
    fault := s.fault }

/-- The run has ended: the host has made its last access and PEND = none (R300). The model requires the whole agenda empty:
whether a reset after the last access belongs to the run, R300 leaves open, and here it does, so the observation is taken
after it. DESIGN CHOICE, unsafe for a claim about the end of such a run (notes/assumptions/22.md). -/
def State.ended (s : State) : Prop := s.agenda = [] ∧ s.pend = none

/-- No model fault has been recorded (R37, R271). -/
def State.good (s : State) : Prop := s.fault = FaultSet.none

/-- A good end has FAULT = none (R300). -/
def State.goodEnd (s : State) : Prop := s.ended ∧ s.good

/-- It is the core's turn: the agenda says so, or it is exhausted (R6, R297). -/
def State.coreMoves (s : State) : Prop := s.agenda = [] ∨ ∃ rest, s.agenda = .core :: rest

/-- The invariant every step keeps, on every state: the parameters are legal (R8), MSG and BLOCK are canonical and lie in
their spaces (R29, R53), and ACC is a DJB_W-bit value (R26, R220). -/
structure State.Inv (s : State) : Prop where
  legal : s.cfg.legal
  msgWf : s.msg.wf = true
  msgWithin : s.msg.within s.cfg.msgCap = true
  blockWf : s.block.wf = true
  blockWithin : s.block.within 64 = true
  accFits : s.acc.toNat < 2 ^ djbBits s.cfg

/-- The byte store `m` holds the bytes `bs` from address `a` on, each of them written. -/
def Memory.holds (m : Memory) (a : Nat) (bs : List Byte) : Prop :=
  ∀ t, t < bs.length → m.read (a + t) = bs[t]?

/-- MSG[0..LEN) is the message `m`, all written, and it fits (R23, R53, R149). -/
def State.hasMessage (s : State) (m : List Byte) : Prop :=
  m.length = s.len.toNat ∧ m.length ≤ s.cfg.msgCap ∧ s.msg.holds 0 m

/-- Commands completed one after another, as the host issues each once the one before has completed. -/
def runCommands : List Instr → State → Host.Outcome State Fault Refusal
  | [], s => .next s
  | i :: rest, s =>
    match exec i s with
    | .next t => runCommands rest t
    | .fault r => .fault r
    | .refused r => .refused r

/-- `SHA_INIT; (PADBLK_SHA j; SHA_BLOCK) for j in 0..n−1` (R170). -/
def shaChain (n : Nat) : List Instr :=
  .shaInit :: (List.range n).flatMap fun j => [.padblkSha (BitVec.ofNat 64 j), .shaBlock]

/-- `MD5_INIT; (PADBLK_MD5 j; MD5_BLOCK) for j in 0..n−1` (R200). -/
def md5Chain (n : Nat) : List Instr :=
  .md5Init :: (List.range n).flatMap fun j => [.padblkMd5 (BitVec.ofNat 64 j), .md5Block]

/-- `DJB_INIT` followed by `DJB_BYTE m[t]` for t in 0..LEN−1 (R226). -/
def djbChain (m : List Byte) : List Instr := .djbInit :: m.map .djbByte

/-- `ext(c)` of R221 as a number: zext_DJB_W(c), or sext_DJB_W(c), which is c for c < 0x80 and 2^DJB_W − 256 + c above. -/
def djbExtNat (c : Config) (b : Byte) : Nat :=
  match c.byteExt with
  | .zext => b.toNat
  | .sext => if b.toNat < 0x80 then b.toNat else 2 ^ djbBits c - 256 + b.toNat

/-- The commands that read LEN and MSG, and so make the CAPACITY check (R248, R262). -/
def readsMessage : Instr → Bool
  | .nop => false
  | .shaInit => false
  | .shaBlock => false
  | .shaMsg => true
  | .padblkSha _ => true
  | .md5Init => false
  | .md5Block => false
  | .md5Msg => true
  | .padblkMd5 _ => true
  | .djbInit => false
  | .djbByte _ => false
  | .djbMsg => true

/-- The commands that read BLOCK (R248). -/
def readsBlock : Instr → Bool
  | .nop => false
  | .shaInit => false
  | .shaBlock => true
  | .shaMsg => false
  | .padblkSha _ => false
  | .md5Init => false
  | .md5Block => true
  | .md5Msg => false
  | .padblkMd5 _ => false
  | .djbInit => false
  | .djbByte _ => false
  | .djbMsg => false

/-- The commands that write H (R27, R248). -/
def writesH : Instr → Bool
  | .nop => false
  | .shaInit => true
  | .shaBlock => true
  | .shaMsg => true
  | .padblkSha _ => false
  | .md5Init => false
  | .md5Block => false
  | .md5Msg => false
  | .padblkMd5 _ => false
  | .djbInit => false
  | .djbByte _ => false
  | .djbMsg => false

/-- The commands that write S (R28, R248). -/
def writesS : Instr → Bool
  | .nop => false
  | .shaInit => false
  | .shaBlock => false
  | .shaMsg => false
  | .padblkSha _ => false
  | .md5Init => true
  | .md5Block => true
  | .md5Msg => true
  | .padblkMd5 _ => false
  | .djbInit => false
  | .djbByte _ => false
  | .djbMsg => false

/-- The commands that write ACC (R26, R248). -/
def writesAcc : Instr → Bool
  | .nop => false
  | .shaInit => false
  | .shaBlock => false
  | .shaMsg => false
  | .padblkSha _ => false
  | .md5Init => false
  | .md5Block => false
  | .md5Msg => false
  | .padblkMd5 _ => false
  | .djbInit => true
  | .djbByte _ => true
  | .djbMsg => true

/-- The commands that write BLOCK (R29, R248). -/
def writesBlock : Instr → Bool
  | .nop => false
  | .shaInit => false
  | .shaBlock => false
  | .shaMsg => false
  | .padblkSha _ => true
  | .md5Init => false
  | .md5Block => false
  | .md5Msg => false
  | .padblkMd5 _ => true
  | .djbInit => false
  | .djbByte _ => false
  | .djbMsg => false

/-- This step completes a pending command of which `p` holds (R242). -/
def State.completes (s : State) (p : Instr → Bool) : Prop :=
  s.coreMoves ∧ ∃ c i, s.pend = some c ∧ decode c = .ok i ∧ p i = true

/-- This step is reset (R290). -/
def State.resets (s : State) : Prop := ∃ rest, s.agenda = .reset :: rest

/-- This step is a host access of which `p` holds, made while no command is pending (R63, R295). -/
def State.idleAccess (s : State) (p : HostAccess → Prop) : Prop :=
  s.pend = none ∧ ∃ x rest, s.agenda = .host x :: rest ∧ p x

/-- `x` is a 32-bit write to the register at offset `n` (R52). -/
def writesReg (n : Nat) (x : HostAccess) : Prop := ∃ off v, x = .regWrite 32 off v ∧ off.toNat = n

/-- `s` once its turn has been taken and its pending command taken up (R242). -/
def State.taken (s : State) : State := { s with pend := none, agenda := s.agenda.tail }

end Sys2Proof.Machine
end

