-- ==== Sys2Proof/Certificates/Slice0/Obligations.lean ====
section
/-! DEFINITION. The statements for the provers, from the spec's numbered rules. Each docstring names the rule it formalises.
A statement about every state holds for every instance of the parameters, since State carries them. -/

open Sys2Proof Sys2Proof.Machine

/-! Encoding (30_encoding.md). -/

/-- Decoding the word of a well-formed command gives the command back, for every operand (R84, R85, R89). -/
def Obligations.DecodeOfEncode : Prop := ∀ i : Instr, i.WellFormed → decode (encode i) = .ok i

/-- A word that decodes is the word of the command it decodes to, which is well formed (R83-R85). -/
def Obligations.EncodeOfDecode : Prop := ∀ (c : Word) (i : Instr), decode c = .ok i → i.WellFormed ∧ encode i = c

/-- "At most one row matches any word" (R84). -/
def Obligations.AtMostOneRowSelectsAWord : Prop :=
  ∀ c : Word, (opcodeMap.filter fun r => r.selects c).length ≤ 1

/-- A word decodes exactly when a row of the opcode map selects it, and then to a command of that row; it is refused for its
opcode exactly when the opcode is none of the twelve (R84-R86). -/
def Obligations.DecodeFollowsTheOpcodeMap : Prop :=
  ∀ c : Word,
    ((∃ i, decode c = .ok i) ↔ ∃ r ∈ opcodeMap, r.selects c = true) ∧
      (∀ i, decode c = .ok i → i.row ∈ opcodeMap ∧ i.row.selects c = true) ∧
      (decode c = .error .unassignedOpcode ↔
        c.toNat % 256 ∉ [0x00, 0x01, 0x02, 0x03, 0x04, 0x11, 0x12, 0x13, 0x14, 0x21, 0x22, 0x23])

/-- Words written out from the opcode map and the forms, one or more per family (R83, R84; 95_test_vectors.md 2.6). -/
def Obligations.SpecWordsDecode : Prop :=
  decode 0x00000000#32 = .ok .nop ∧ decode 0x00000003#32 = .ok .shaMsg ∧
    decode 0xFFFFFF04#32 = .ok (.padblkSha 16777215) ∧ decode 0x00000012#32 = .ok .md5Block ∧
    decode 0x00000114#32 = .ok (.padblkMd5 1) ∧ decode 0x0000FF22#32 = .ok (.djbByte 0xFF#8) ∧
    decode 0x00000100#32 = .error .reservedArg ∧ decode 0x80000003#32 = .error .reservedArg ∧
    decode 0x00016122#32 = .error .reservedArg ∧ decode 0x00000005#32 = .error .unassignedOpcode

/-- "Every needed j < nblk(MSG_CAP) ≤ 2^24 can" be encoded (R8, R146). -/
def Obligations.EveryNeededBlockIndexEncodes : Prop :=
  ∀ c : Config, c.legal → ∀ (len : Nat) (j : DWord), len ≤ c.msgCap → j.toNat < nblk len →
    (Instr.padblkSha j).WellFormed ∧ (Instr.padblkMd5 j).WellFormed

/-! The step (45_control.md). -/

/-- On the core's turn a pending word that decodes is executed, with PEND back at none (R241, R242). -/
def Obligations.StepRunsThePendingCommand : Prop :=
  ∀ (s : State) (c : Word) (i : Instr), s.coreMoves → s.pend = some c → decode c = .ok i → step s = exec i s.taken

/-- `Illegal` raises ILLEGAL, always: STATUS.ERR becomes 1, nothing else changes, and no fault is recorded (R244). -/
def Obligations.IllegalWordSetsErrAlone : Prop :=
  ∀ (s : State) (c : Word), s.coreMoves → s.pend = some c → (∀ r ∈ opcodeMap, r.selects c = false) →
    step s = .next { s.taken with err := .illegal } ∧
      State.statusWord { s.taken with err := .illegal } = 0x00000010#32

/-- The core, when idle, takes no step, and all state is retained (R278; the turn itself is the model's own,
notes/assumptions/3.md). -/
def Obligations.IdleCoreKeepsAllState : Prop :=
  ∀ s : State, s.coreMoves → s.pend = none → step s = .next { s with agenda := s.agenda.tail }

/-- A host access is one step of the host agent, and PEND, when it is not none, survives it (R62, R297). -/
def Obligations.HostAccessIsOneStep : Prop :=
  ∀ (s : State) (x : HostAccess) (rest : List Event), s.agenda = .host x :: rest →
    step s = .next (hostAccess { s with agenda := rest } x) ∧
      (s.pend ≠ none → (hostAccess { s with agenda := rest } x).pend = s.pend)

/-- "Once PEND ≠ none, the core's completion step is enabled and stays enabled until it is taken": whatever the host does
meanwhile, a pending command is gone once the agenda is exhausted or before (R297; notes/assumptions/2.md). -/
def Obligations.PendingCommandCompletes : Prop :=
  ∀ s : State, s.pend ≠ none →
    ∃ k ≤ s.agenda.length, ∃ t : State, Host.Core.run Sys2Proof.core (k + 1) s = .next t ∧ t.pend = none

/-! What each command does when it completes. -/

/-- NOP: STATUS.ERR <- 0 and nothing else; its word is 0x00000000 exactly, with ARG ≠ 0 the word is illegal and not a NOP;
it goes through issue and completion, so BUSY is 1 between them (R243). -/
def Obligations.NopOnlyClearsErr : Prop :=
  (∀ s : State, exec .nop s = .next { s with err := .ok }) ∧
    (∀ c : Word, decode c = .ok .nop ↔ c = 0x00000000#32) ∧
    (∀ c : Word, c.toNat % 256 = 0 → c ≠ 0 → decode c = .error .reservedArg) ∧
    ∀ s : State, s.agenda = [] → s.pend = none →
      ∃ t, step { s with agenda := [.host (.regWrite 32 0x000#12 0x00000000#32)] } = .next t ∧ t.busy = true ∧
        step t = .next { s with err := .ok, bus := none }

/-- SHA_INIT, MD5_INIT and DJB_INIT load the initial values and clear ERR, and touch nothing else (R160, R169, R190, R199,
R224). -/
def Obligations.InitCommandsLoadTheVectors : Prop :=
  ∀ s : State,
    exec .shaInit s = .next { s with
      h := ⟨0x6A09E667#32, 0xBB67AE85#32, 0x3C6EF372#32, 0xA54FF53A#32, 0x510E527F#32, 0x9B05688C#32, 0x1F83D9AB#32,
        0x5BE0CD19#32⟩
      err := .ok } ∧
    exec .md5Init s = .next { s with s := ⟨0x67452301#32, 0xEFCDAB89#32, 0x98BADCFE#32, 0x10325476#32⟩, err := .ok } ∧
    exec .djbInit s = .next { s with acc := 5381#64, err := .ok }

/-- SHA_BLOCK and MD5_BLOCK fold the 64 written bytes of BLOCK into the current state, clear ERR and change nothing else
(R170, R200). -/
def Obligations.BlockCommandsCompressTheBuffer : Prop :=
  ∀ (s : State) (blk : List Byte), blk.length = 64 → s.block.holds 0 blk →
    exec .shaBlock s = .next { s with h := shaCompress blk s.h, err := .ok } ∧
      exec .md5Block s = .next { s with s := md5Mix blk s.s, err := .ok }

/-- SHA_MSG, MD5_MSG and DJB_MSG compute the whole message's value, whatever the engine held before, clear ERR and change
nothing else (R171, R201, R226). -/
def Obligations.MessageCommandsHashTheMessage : Prop :=
  ∀ (s : State) (m : List Byte), s.hasMessage m →
    exec .shaMsg s = .next { s with h := sha256State m, err := .ok } ∧
      exec .md5Msg s = .next { s with s := md5State m, err := .ok } ∧
      exec .djbMsg s = .next { s with acc := djb2 s.cfg m, err := .ok }

/-- DJB_BYTE b: ACC <- (ACC · 33 + ext(b)) mod 2^DJB_W, for both widths and both widenings, and nothing else but ERR
(R220-R222, R225). -/
def Obligations.DjbByteFoldsTheByte : Prop :=
  ∀ (s : State) (b : Byte), ∃ acc : DWord,
    exec (.djbByte b) s = .next { s with acc := acc, err := .ok } ∧
      acc.toNat = (s.acc.toNat * 33 + djbExtNat s.cfg b) % 2 ^ djbBits s.cfg

/-- PADBLK_SHA j and PADBLK_MD5 j load bytes 64j to 64j+63 of the padded message into BLOCK, reading only the message
bytes of that block, clear ERR and change nothing else (R141, R144, R146, R147). -/
def Obligations.PadblkLoadsThePaddedBlock : Prop :=
  ∀ (s : State) (j : DWord) (m : List Byte), m.length = s.len.toNat → s.len.toNat ≤ s.cfg.msgCap →
    j.toNat < nblk s.len.toNat →
    (∀ p, 64 * j.toNat ≤ p → p < min s.len.toNat (64 * j.toNat + 64) → s.msg.read p = m[p]?) →
    (∃ b : Memory, exec (.padblkSha j) s = .next { s with block := b, err := .ok } ∧
        (∀ t < 64, b.read t = (pad .be m)[64 * j.toNat + t]?) ∧ ∀ a, 64 ≤ a → b.read a = s.block.read a) ∧
      ∃ b : Memory, exec (.padblkMd5 j) s = .next { s with block := b, err := .ok } ∧
        (∀ t < 64, b.read t = (pad .le m)[64 * j.toNat + t]?) ∧ ∀ a, 64 ≤ a → b.read a = s.block.read a

/-! Errors, priority and the fault of a command (60_exceptions.md). -/

/-- CAPACITY, code 2: the five commands that consume the message raise it when LEN > MSG_CAP; whatever MSG holds, they
write nothing but ERR (R262). -/
def Obligations.CapacityErrorChangesErrAlone : Prop :=
  ErrCode.code .capacity = 2 ∧
    ∀ s : State, s.cfg.msgCap < s.len.toNat →
      exec .shaMsg s = .next { s with err := .capacity } ∧ exec .md5Msg s = .next { s with err := .capacity } ∧
        exec .djbMsg s = .next { s with err := .capacity } ∧
        ∀ j : DWord, exec (.padblkSha j) s = .next { s with err := .capacity } ∧
          exec (.padblkMd5 j) s = .next { s with err := .capacity }

/-- INDEX, code 3: PADBLK raises it when LEN ≤ MSG_CAP and j ≥ nblk(LEN); BLOCK is unchanged, and so is all but ERR
(R263, R265). -/
def Obligations.IndexErrorChangesErrAlone : Prop :=
  ErrCode.code .index = 3 ∧
    ∀ (s : State) (j : DWord), s.len.toNat ≤ s.cfg.msgCap → nblk s.len.toNat ≤ j.toNat →
      exec (.padblkSha j) s = .next { s with err := .index } ∧ exec (.padblkMd5 j) s = .next { s with err := .index }

/-- The checks run in the order ILLEGAL, CAPACITY, INDEX, UninitRead: each case holds whatever the later checks would say
(R266). -/
def Obligations.ErrorPriority : Prop :=
  ∀ (s : State) (c : Word), s.coreMoves → s.pend = some c →
    (∀ e, decode c = .error e → step s = .next { s.taken with err := .illegal }) ∧
      ∀ i, decode c = .ok i →
        (readsMessage i = true → s.cfg.msgCap < s.len.toNat → step s = .next { s.taken with err := .capacity }) ∧
          (∀ j, i = .padblkSha j ∨ i = .padblkMd5 j → s.len.toNat ≤ s.cfg.msgCap → nblk s.len.toNat ≤ j.toNat →
            step s = .next { s.taken with err := .index }) ∧
          ((readsMessage i = true → s.len.toNat ≤ s.cfg.msgCap ∧ ∀ j, i = .padblkSha j ∨ i = .padblkMd5 j →
              j.toNat < nblk s.len.toNat) →
            ∃ t, step s = .next t ∧ (t.fault.has .uninitRead = true ∨ t.err = .ok))

/-- A command that ends in an error leaves no partial output: where no UninitRead fault is recorded, a completion either
clears ERR or changes ERR alone, to CAPACITY when LEN > MSG_CAP or to INDEX when j ≥ nblk(LEN) (R245, R265). -/
def Obligations.ErrorsLeaveNoPartialOutput : Prop :=
  ∀ (i : Instr) (s t : State), exec i s = .next t → t.fault.has .uninitRead = false →
    t.err = .ok ∨
      (t = { s with err := .capacity } ∧ readsMessage i = true ∧ s.cfg.msgCap < s.len.toNat) ∨
      (t = { s with err := .index } ∧ s.len.toNat ≤ s.cfg.msgCap ∧
        ∃ j, (i = .padblkSha j ∨ i = .padblkMd5 j) ∧ nblk s.len.toNat ≤ j.toNat)

/-- A command that reads an unwritten byte of BLOCK, or of MSG[0..LEN), completes with UninitRead in FAULT. That only its
own outputs and ERR are left open is the model's choice (R36, R242, R270; notes/assumptions/6.md). -/
def Obligations.UnwrittenBytesFaultTheCommand : Prop :=
  ∀ s : State,
    ((∃ a < 64, s.block.read a = none) →
      (∃ t, exec .shaBlock s = .next t ∧ t.fault = s.fault.add .uninitRead ∧
          t = { s with h := t.h, err := t.err, fault := t.fault, draws := t.draws }) ∧
        ∃ t, exec .md5Block s = .next t ∧ t.fault = s.fault.add .uninitRead ∧
          t = { s with s := t.s, err := t.err, fault := t.fault, draws := t.draws }) ∧
    (s.len.toNat ≤ s.cfg.msgCap → (∃ a < s.len.toNat, s.msg.read a = none) →
      (∃ t, exec .shaMsg s = .next t ∧ t.fault = s.fault.add .uninitRead ∧
          t = { s with h := t.h, err := t.err, fault := t.fault, draws := t.draws }) ∧
        (∃ t, exec .md5Msg s = .next t ∧ t.fault = s.fault.add .uninitRead ∧
          t = { s with s := t.s, err := t.err, fault := t.fault, draws := t.draws }) ∧
        ∃ t, exec .djbMsg s = .next t ∧ t.fault = s.fault.add .uninitRead ∧
          t = { s with acc := t.acc, err := t.err, fault := t.fault, draws := t.draws }) ∧
    ∀ j : DWord, s.len.toNat ≤ s.cfg.msgCap → j.toNat < nblk s.len.toNat →
      (∃ a, 64 * j.toNat ≤ a ∧ a < min s.len.toNat (64 * j.toNat + 64) ∧ s.msg.read a = none) →
      (∃ t, exec (.padblkSha j) s = .next t ∧ t.fault = s.fault.add .uninitRead ∧
          t = { s with block := t.block, err := t.err, fault := t.fault, draws := t.draws }) ∧
        ∃ t, exec (.padblkMd5 j) s = .next t ∧ t.fault = s.fault.add .uninitRead ∧
          t = { s with block := t.block, err := t.err, fault := t.fault, draws := t.draws }

/-! Frames and whole-machine rules. -/

/-- The frame of every command, however it ends. That a command which faults UninitRead keeps what its write set does not
name is the model's choice (notes/assumptions/6.md; R242, R270 and U17 leave it open). No command writes LEN, MSG, the parameters or PEND; H, S, ACC and BLOCK
change only by the commands that write them, and no byte outside BLOCK[0..63] by a PADBLK; FAULT gains at most UninitRead
(R53, R242, R248, R265, R270). -/
def Obligations.CommandFrame : Prop :=
  ∀ (i : Instr) (s t : State), exec i s = .next t →
    t.cfg = s.cfg ∧ t.pend = s.pend ∧ t.len = s.len ∧ t.agenda = s.agenda ∧ t.bus = s.bus ∧
      (∀ a, t.msg.read a = s.msg.read a) ∧
      (writesH i = false → t.h = s.h) ∧ (writesS i = false → t.s = s.s) ∧ (writesAcc i = false → t.acc = s.acc) ∧
      (writesBlock i = false → ∀ a, t.block.read a = s.block.read a) ∧
      (∀ a, 64 ≤ a → t.block.read a = s.block.read a) ∧
      (t.fault = s.fault ∨ t.fault = s.fault.add .uninitRead)

/-- Who may change what, over every step: H, S, ACC and BLOCK only by their commands and reset (and BLOCK by the host), MSG
and LEN only by the host and reset, PEND only by issue, completion and reset, ERR only by a completion and reset, the
parameters by nothing (R8, R22, R23, R26-R30, R53, R248, R297). For a completion that faults UninitRead this is the model's
choice (notes/assumptions/6.md). -/
def Obligations.EachRegisterHasItsWriters : Prop :=
  ∀ s t : State, step s = .next t →
    (t.h ≠ s.h → s.resets ∨ s.completes writesH) ∧
      (t.s ≠ s.s → s.resets ∨ s.completes writesS) ∧
      (t.acc ≠ s.acc → s.resets ∨ s.completes writesAcc) ∧
      (t.block ≠ s.block → s.resets ∨ s.completes writesBlock ∨
        s.idleAccess fun x => ∃ k < 16, writesReg (0x080 + 4 * k) x) ∧
      (t.msg ≠ s.msg → s.resets ∨ s.idleAccess fun x => ∃ bits a v, x = .msgWrite bits a v) ∧
      (t.len ≠ s.len → s.resets ∨ s.idleAccess fun x => writesReg 0x008 x ∨ writesReg 0x00C x) ∧
      (t.pend ≠ s.pend → s.resets ∨ s.coreMoves ∨ s.idleAccess (writesReg 0x000)) ∧
      (t.err ≠ s.err → s.resets ∨ (s.coreMoves ∧ s.pend ≠ none)) ∧
      t.cfg = s.cfg

/-- FAULT "keeps every reason ever recorded, and no command, access or reset clears it", so no good end follows a fault
(R271). -/
def Obligations.FaultsAreSticky : Prop :=
  ∀ s t : State, step s = .next t →
    (∀ r, s.fault.has r = true → t.fault.has r = true) ∧ (¬ s.good → ¬ t.good ∧ ¬ t.goodEnd)

/-- Every step keeps the invariant, from every state that has it: legal parameters, MSG and BLOCK canonical and within their
spaces, ACC of DJB_W bits (R8, R26, R29, R53, R220). -/
def Obligations.StepKeepsTheInvariant : Prop := ∀ s t : State, s.Inv → step s = .next t → t.Inv

/-- The state after reset has the invariant, for every legal instance. -/
def Obligations.ResetHasTheInvariant : Prop :=
  State.reset.Inv ∧ ∀ c : Config, c.legal → (State.resetWith c).Inv

/-! Block by block is the whole message. -/

/-- `SHA_INIT; (PADBLK_SHA j; SHA_BLOCK) for j in 0..N−1` computes what SHA_MSG computes, sha256_state(MSG[0..LEN)), and
leaves all but H, BLOCK and ERR alone (R167, R170, R171). -/
def Obligations.ShaBlockChainHashesTheMessage : Prop :=
  ∀ (s : State) (m : List Byte), s.hasMessage m →
    ∃ b : Memory, runCommands (shaChain (nblk s.len.toNat)) s =
      .next { s with h := sha256State m, block := b, err := .ok }

/-- `MD5_INIT; (PADBLK_MD5 j; MD5_BLOCK) for j in 0..N−1` computes md5_state(MSG[0..LEN)), and leaves all but S, BLOCK and
ERR alone (R197, R200, R201). -/
def Obligations.Md5BlockChainHashesTheMessage : Prop :=
  ∀ (s : State) (m : List Byte), s.hasMessage m →
    ∃ b : Memory, runCommands (md5Chain (nblk s.len.toNat)) s =
      .next { s with s := md5State m, block := b, err := .ok }

/-- "`DJB_MSG` equals `DJB_INIT` followed by `DJB_BYTE MSG[t]` for t in 0..LEN−1", as whole states (R226). -/
def Obligations.DjbByteChainEqualsDjbMsg : Prop :=
  ∀ (s : State) (m : List Byte), s.hasMessage m →
    ∃ t, exec .djbMsg s = .next t ∧ runCommands (djbChain m) s = .next t

/-- Two *_MSG commands with the same LEN and the same MSG[0..LEN) write the same value, whatever the two states otherwise
hold (R301). -/
def Obligations.MessageCommandsForgetHistory : Prop :=
  ∀ s u : State, s.cfg = u.cfg → s.len = u.len → s.len.toNat ≤ s.cfg.msgCap →
    (∀ a < s.len.toNat, s.msg.read a ≠ none ∧ u.msg.read a = s.msg.read a) →
    (∃ t v, exec .shaMsg s = .next t ∧ exec .shaMsg u = .next v ∧ t.h = v.h) ∧
      (∃ t v, exec .md5Msg s = .next t ∧ exec .md5Msg u = .next v ∧ t.s = v.s) ∧
      ∃ t v, exec .djbMsg s = .next t ∧ exec .djbMsg u = .next v ∧ t.acc = v.acc

/-! Reset (70_reset_and_hazards.md). -/

/-- Reset is one atomic step that sets every register as R290 lists it, keeps FAULT and the parameters, and discards a
pending command: but for FAULT and the model's own fields the state is that of power-on (R290, R292). -/
def Obligations.ResetSetsEveryRegister : Prop :=
  ∀ (s : State) (rest : List Event), s.agenda = .reset :: rest →
    ∃ t, step s = .next t ∧ t.pend = none ∧ t.err = .ok ∧ t.len = 0 ∧
      t.h = ⟨0x6A09E667#32, 0xBB67AE85#32, 0x3C6EF372#32, 0xA54FF53A#32, 0x510E527F#32, 0x9B05688C#32, 0x1F83D9AB#32,
        0x5BE0CD19#32⟩ ∧
      t.s = ⟨0x67452301#32, 0xEFCDAB89#32, 0x98BADCFE#32, 0x10325476#32⟩ ∧ t.acc = 5381#64 ∧
      (∀ a, t.block.read a = none) ∧ (∀ a, t.msg.read a = none) ∧ t.cfg = s.cfg ∧ t.fault = s.fault ∧
      t.busy = false ∧ t.nblkWord = 1 ∧
      t = { State.resetWith s.cfg with fault := s.fault, draws := t.draws, agenda := t.agenda, bus := t.bus }

/-- What the host reads after power-on, for every instance (R21-R29, R290; 95_test_vectors.md 2.8). -/
def Obligations.RegistersReadAfterReset : Prop :=
  ∀ c : Config,
    (regRead (State.resetWith c) 32 0x000#12).bus = some (.word 0) ∧
      (regRead (State.resetWith c) 32 0x004#12).bus = some (.word 0) ∧
      (regRead (State.resetWith c) 32 0x008#12).bus = some (.word 0) ∧
      (regRead (State.resetWith c) 32 0x00C#12).bus = some (.word 0) ∧
      (regRead (State.resetWith c) 32 0x010#12).bus = some (.word 1) ∧
      (regRead (State.resetWith c) 32 0x014#12).bus = some (.word (BitVec.ofNat 32 c.msgCap)) ∧
      (regRead (State.resetWith c) 32 0x018#12).bus = some (.word 0x00001505#32) ∧
      (regRead (State.resetWith c) 32 0x01C#12).bus = some (.word 0) ∧
      (regRead (State.resetWith c) 32 0x020#12).bus = some (.word 0x6A09E667#32) ∧
      (regRead (State.resetWith c) 32 0x04C#12).bus = some (.word 0x10325476#32) ∧
      (regRead (State.resetWith c) 32 0x080#12).fault.has .uninitRead = true

/-! The host's accesses (20_memory.md). -/

/-- STATUS: BUSY in bit 0 exactly when PEND ≠ none, ERR in bits 7:4 with a code of 0 to 3, every other bit 0; the host reads
it exactly at any time (R22, R30, R264). -/
def Obligations.StatusWordLayout : Prop :=
  ∀ s : State,
    s.statusWord.toNat = (if s.pend = none then 0 else 1) + 16 * s.err.code.toNat ∧ s.err.code.toNat ≤ 3 ∧
      regRead s 32 0x004#12 = { s with bus := some (.word s.statusWord) }

/-- The REG map, read while no command is pending: every mapped register at its offset, 0 at CMD and at unmapped offsets; a
BLOCK word that includes an unwritten byte faults UninitRead with no other effect (R21-R29, R36, R58-R60, R270). -/
def Obligations.RegisterMapReads : Prop :=
  ∀ (s : State) (off : BitVec 12), s.pend = none → off.toNat % 4 = 0 →
    (off.toNat = 0x000 → regRead s 32 off = { s with bus := some (.word 0) }) ∧
    (off.toNat = 0x008 → regRead s 32 off = { s with bus := some (.word (s.len.extractLsb' 0 32)) }) ∧
    (off.toNat = 0x00C → regRead s 32 off = { s with bus := some (.word (s.len.extractLsb' 32 32)) }) ∧
    (off.toNat = 0x010 →
      regRead s 32 off = { s with bus := some (.word (BitVec.ofNat 32 ((s.len.toNat + 8) / 64 + 1))) }) ∧
    (off.toNat = 0x014 → regRead s 32 off = { s with bus := some (.word (BitVec.ofNat 32 s.cfg.msgCap)) }) ∧
    (off.toNat = 0x018 → regRead s 32 off = { s with bus := some (.word (s.acc.extractLsb' 0 32)) }) ∧
    (off.toNat = 0x01C → regRead s 32 off = { s with bus := some (.word
      (if s.cfg.djbWidth = .w64 then s.acc.extractLsb' 32 32 else 0)) }) ∧
    (∀ k < 8, off.toNat = 0x020 + 4 * k → regRead s 32 off = { s with bus := some (.word
      ([s.h.a, s.h.b, s.h.c, s.h.d, s.h.e, s.h.f, s.h.g, s.h.h].getD k 0)) }) ∧
    (∀ k < 4, off.toNat = 0x040 + 4 * k → regRead s 32 off = { s with bus := some (.word
      ([s.s.a, s.s.b, s.s.c, s.s.d].getD k 0)) }) ∧
    (∀ k < 16, off.toNat = 0x080 + 4 * k → ∀ b0 b1 b2 b3 : Byte, s.block.holds (4 * k) [b0, b1, b2, b3] →
      regRead s 32 off = { s with bus := some (.word (b3 ++ b2 ++ b1 ++ b0)) }) ∧
    (∀ k < 16, off.toNat = 0x080 + 4 * k → (∃ b < 4, s.block.read (4 * k + b) = none) →
      regRead s 32 off = { s with fault := s.fault.add .uninitRead, bus := none }) ∧
    (0x050 ≤ off.toNat ∧ off.toNat ≤ 0x07C ∨ 0x0C0 ≤ off.toNat →
      regRead s 32 off = { s with bus := some (.word 0) })

/-- While a command is pending, a read of a mapped register other than STATUS returns the next free value; a BLOCK word with
an unwritten byte also faults UninitRead, which is the model's reading (notes/assumptions/9.md); written MSG
bytes read exactly, as a byte and as a word (R36, R70, R296). -/
def Obligations.BusyReadsReturnAnything : Prop :=
  ∀ (s : State) (off : BitVec 12), s.pend ≠ none → off.toNat % 4 = 0 →
    (off.toNat ≠ 0x004 → off.toNat < 0x050 →
      regRead s 32 off = { s with bus := some (.word (Config.freeWord s.draws)), draws := s.draws + 1 }) ∧
    (∀ k < 16, off.toNat = 0x080 + 4 * k →
      ((∀ b < 4, s.block.read (4 * k + b) ≠ none) →
        regRead s 32 off = { s with bus := some (.word (Config.freeWord s.draws)), draws := s.draws + 1 }) ∧
      ((∃ b < 4, s.block.read (4 * k + b) = none) →
        regRead s 32 off = { s with
          bus := some (.word (Config.freeWord s.draws)), draws := s.draws + 1, fault := s.fault.add .uninitRead })) ∧
    (∀ a b, a < s.cfg.msgCap → s.msg.read a = some b → msgRead s 8 a = { s with bus := some (.byte b) }) ∧
    ∀ a, a % 4 = 0 → a + 3 < s.cfg.msgCap → ∀ b0 b1 b2 b3 : Byte, s.msg.holds a [b0, b1, b2, b3] →
      msgRead s 32 a = { s with bus := some (.word (b3 ++ b2 ++ b1 ++ b0)) }

/-- A write to CMD while a command is pending is HostProtocol(CmdWhileBusy): PEND keeps the earlier command and the written
word is dropped (R294). While none is pending it makes the word pending, and BUSY 1, and changes nothing else (R240). -/
def Obligations.IssueAndCommandOverlap : Prop :=
  ∀ (s : State) (c : Word),
    (s.pend = none → regWrite s 32 0x000#12 c = { s with pend := some c, bus := none } ∧
        (regWrite s 32 0x000#12 c).busy = true) ∧
      (s.pend ≠ none → regWrite s 32 0x000#12 c =
        { s with fault := s.fault.add (.hostProtocol .cmdWhileBusy), bus := none })

/-- A host write to LEN_LO, LEN_HI, any BLOCK word or any MSG byte while STATUS.BUSY = 1 is HostProtocol(WriteWhileBusy)
and has no effect (R295). -/
def Obligations.InputWritesWhileBusyFault : Prop :=
  ∀ s : State, s.pend ≠ none →
    (∀ (off : BitVec 12) (v : Word),
      off.toNat = 0x008 ∨ off.toNat = 0x00C ∨ (∃ k < 16, off.toNat = 0x080 + 4 * k) →
      regWrite s 32 off v = { s with fault := s.fault.add (.hostProtocol .writeWhileBusy), bus := none }) ∧
    ∀ (a : Nat) (v : Word),
      (a < s.cfg.msgCap →
        msgWrite s 8 a v = { s with fault := s.fault.add (.hostProtocol .writeWhileBusy), bus := none }) ∧
      (a % 4 = 0 → a + 3 < s.cfg.msgCap →
        msgWrite s 32 a v = { s with fault := s.fault.add (.hostProtocol .writeWhileBusy), bus := none })

/-- A REG access of a width other than 32 bits, or at an offset that is not a multiple of 4, is HostProtocol(RegAccess) and
has no effect on the core (R52). That a malformed write records RegAccess alone while a command is pending is the model's
choice of an order of checks (notes/assumptions/10.md). -/
def Obligations.MalformedRegAccessFaults : Prop :=
  ∀ (s : State) (bits : Nat) (off : BitVec 12) (v : Word), bits ≠ 32 ∨ off.toNat % 4 ≠ 0 →
    regRead s bits off = { s with fault := s.fault.add (.hostProtocol .regAccess), bus := none } ∧
      regWrite s bits off v = { s with fault := s.fault.add (.hostProtocol .regAccess), bus := none }

/-- An MSG access that is neither 8-bit below MSG_CAP nor 32-bit, aligned and below MSG_CAP is HostProtocol(MsgAccess) and
has no effect; the legal ones never record it (R54). That such a write records MsgAccess alone while a command is pending is
the model's choice of an order of checks (notes/assumptions/10.md). -/
def Obligations.MsgAccessesOutsideTheFormsFault : Prop :=
  ∀ (s : State) (bits a : Nat) (v : Word),
    (¬ (bits = 8 ∧ a < s.cfg.msgCap ∨ bits = 32 ∧ a % 4 = 0 ∧ a + 3 < s.cfg.msgCap) →
      msgRead s bits a = { s with fault := s.fault.add (.hostProtocol .msgAccess), bus := none } ∧
        msgWrite s bits a v = { s with fault := s.fault.add (.hostProtocol .msgAccess), bus := none }) ∧
    (bits = 8 ∧ a < s.cfg.msgCap ∨ bits = 32 ∧ a % 4 = 0 ∧ a + 3 < s.cfg.msgCap →
      (msgRead s bits a).fault.has (.hostProtocol .msgAccess) = s.fault.has (.hostProtocol .msgAccess) ∧
        (msgWrite s bits a v).fault.has (.hostProtocol .msgAccess) = s.fault.has (.hostProtocol .msgAccess))

/-- Three kinds of REG access have no effect: a read of an unmapped offset returns 0, a write to an unmapped offset or to a
read-only register is ignored, none raises an error or changes STATUS, busy or not (R59). -/
def Obligations.UnmappedAndReadOnlyAccesses : Prop :=
  ∀ (s : State) (off : BitVec 12) (v : Word), off.toNat % 4 = 0 →
    (0x050 ≤ off.toNat ∧ off.toNat < 0x080 ∨ 0x0C0 ≤ off.toNat →
      regRead s 32 off = { s with bus := some (.word 0) } ∧ regWrite s 32 off v = { s with bus := none }) ∧
    (off.toNat = 0x004 ∨ 0x010 ≤ off.toNat ∧ off.toNat < 0x050 → regWrite s 32 off v = { s with bus := none })

/-- A write to LEN_LO or LEN_HI replaces that half of LEN and leaves the other half and all else (R23). -/
def Obligations.LenHalvesAreWrittenApart : Prop :=
  ∀ (s : State) (v : Word), s.pend = none →
    (∃ n : DWord, regWrite s 32 0x008#12 v = { s with len := n, bus := none } ∧
        n.toNat = s.len.toNat / 2 ^ 32 * 2 ^ 32 + v.toNat) ∧
      ∃ n : DWord, regWrite s 32 0x00C#12 v = { s with len := n, bus := none } ∧
        n.toNat = v.toNat * 2 ^ 32 + s.len.toNat % 2 ^ 32

/-- Bus lanes are little-endian: a 32-bit write to BLOCK_Wk or to MSG puts v[8b+7:8b] at base + b; an 8-bit write puts
v[7:0] at its address; every other byte and all else stay (R55, R56, R58). -/
def Obligations.BusLanesAreLittleEndian : Prop :=
  ∀ (s : State) (v : Word), s.pend = none →
    (∀ (k : Nat) (off : BitVec 12), k < 16 → off.toNat = 0x080 + 4 * k →
      ∃ b : Memory, regWrite s 32 off v = { s with block := b, bus := none } ∧
        (∀ lane < 4, b.read (4 * k + lane) = some (v.extractLsb' (8 * lane) 8)) ∧
        ∀ a, a < 4 * k ∨ 4 * k + 4 ≤ a → b.read a = s.block.read a) ∧
    (∀ base : Nat, base % 4 = 0 → base + 3 < s.cfg.msgCap →
      ∃ m : Memory, msgWrite s 32 base v = { s with msg := m, bus := none } ∧
        (∀ lane < 4, m.read (base + lane) = some (v.extractLsb' (8 * lane) 8)) ∧
        ∀ a, a < base ∨ base + 4 ≤ a → m.read a = s.msg.read a) ∧
    ∀ base : Nat, base < s.cfg.msgCap →
      ∃ m : Memory, msgWrite s 8 base v = { s with msg := m, bus := none } ∧
        m.read base = some (v.extractLsb' 0 8) ∧ ∀ a, a ≠ base → m.read a = s.msg.read a

/-- "A host read that follows a host write to the same register or MSG byte returns the written value at once" (R298, R55,
R58). -/
def Obligations.ReadsReturnWhatWasWritten : Prop :=
  ∀ (s : State) (v : Word), s.pend = none →
    (∀ off : BitVec 12, off.toNat = 0x008 ∨ off.toNat = 0x00C ∨ (∃ k < 16, off.toNat = 0x080 + 4 * k) →
      (regRead (regWrite s 32 off v) 32 off).bus = some (.word v)) ∧
    (∀ a, a % 4 = 0 → a + 3 < s.cfg.msgCap → (msgRead (msgWrite s 32 a v) 32 a).bus = some (.word v)) ∧
    ∀ a, a < s.cfg.msgCap → (msgRead (msgWrite s 8 a v) 8 a).bus = some (.byte (v.extractLsb' 0 8))

/-- No host read changes any state of the core; only FAULT may gain a reason, and the bus and the count of draws are the
model's own (R61, R270). -/
def Obligations.HostReadsChangeNoState : Prop :=
  ∀ (s : State) (bits : Nat) (off : BitVec 12) (a : Nat),
    (∃ v n f, regRead s bits off = { s with bus := v, draws := n, fault := f }) ∧
      ∃ v f, msgRead s bits a = { s with bus := v, fault := f }

/-! The word functions (40_primitives.md). -/

/-- "bit i of the result is bit (i + n) mod 32 of x" for rotr, "(i − n) mod 32" for rotl (R103, R104). -/
def Obligations.RotationsMoveEachBit : Prop :=
  ∀ (x : Word) (n i : Nat), n ≤ 31 → i < 32 →
    (rotr x n).getLsbD i = x.getLsbD ((i + n) % 32) ∧ (rotl x n).getLsbD i = x.getLsbD ((i + 32 - n) % 32)

/-- be32 and le32 are the place values of R115 and R116. be_bytes and le_bytes of n bytes list the bytes of v, most or least
significant first (R117, R118), and for four bytes they are the inverses of be32 and le32. -/
def Obligations.ByteAssemblyIsPositional : Prop :=
  (∀ b0 b1 b2 b3 : Byte,
    (be32 b0 b1 b2 b3).toNat = b0.toNat * 2 ^ 24 + b1.toNat * 2 ^ 16 + b2.toNat * 2 ^ 8 + b3.toNat ∧
      (le32 b0 b1 b2 b3).toNat = b0.toNat + b1.toNat * 2 ^ 8 + b2.toNat * 2 ^ 16 + b3.toNat * 2 ^ 24 ∧
      beBytes (be32 b0 b1 b2 b3).toNat 4 = [b0, b1, b2, b3] ∧ leBytes (le32 b0 b1 b2 b3).toNat 4 = [b0, b1, b2, b3]) ∧
    (∀ v : Word, (∃ b0 b1 b2 b3, beBytes v.toNat 4 = [b0, b1, b2, b3] ∧ be32 b0 b1 b2 b3 = v) ∧
      ∃ b0 b1 b2 b3, leBytes v.toNat 4 = [b0, b1, b2, b3] ∧ le32 b0 b1 b2 b3 = v) ∧
    ∀ v n : Nat, v < 2 ^ (8 * n) →
      (beBytes v n).length = n ∧ (leBytes v n).length = n ∧
        ∀ k < n, (beBytes v n)[k]? = some (BitVec.ofNat 8 (v / 2 ^ (8 * (n - 1 - k)))) ∧
          (leBytes v n)[k]? = some (BitVec.ofNat 8 (v / 2 ^ (8 * k)))

/-- Bit by bit: Ch, F and G select, Maj is the majority, Hf is the parity, I is C ⊕ (B | ~D) (R105, R106, R111-R114). -/
def Obligations.RoundFunctionsPerBit : Prop :=
  ∀ (x y z : Word) (i : Nat), i < 32 →
    (ch x y z).getLsbD i = (if x.getLsbD i then y.getLsbD i else z.getLsbD i) ∧
      (maj x y z).getLsbD i = decide (2 ≤ (x.getLsbD i).toNat + (y.getLsbD i).toNat + (z.getLsbD i).toNat) ∧
      (md5F x y z).getLsbD i = (if x.getLsbD i then y.getLsbD i else z.getLsbD i) ∧
      (md5G x y z).getLsbD i = (if z.getLsbD i then x.getLsbD i else y.getLsbD i) ∧
      (md5H x y z).getLsbD i = ((x.getLsbD i ^^ y.getLsbD i) ^^ z.getLsbD i) ∧
      (md5I x y z).getLsbD i = (y.getLsbD i ^^ (x.getLsbD i || !z.getLsbD i))

/-! The padder (41_padder.md). -/

/-- The invariants of pad_E, for every message (R145). The last 8 bytes are (8 · L) mod 2^64, most significant byte first for
SHA-256 and least significant first for MD5 (R141, R142). -/
def Obligations.PaddingInvariants : Prop :=
  ∀ (e : Endian) (m : List Byte),
    (pad e m).length % 64 = 0 ∧ m.length + 9 ≤ (pad e m).length ∧ (pad e m).length ≤ m.length + 72 ∧
      (pad e m).take m.length = m ∧ (pad e m)[m.length]? = some 0x80#8 ∧
      (pad e m).drop ((pad e m).length - 8) = lengthSuffix e m.length ∧
      ∀ k < 8,
        (pad .be m)[(pad .be m).length - 8 + k]? = some (BitVec.ofNat 8 (8 * m.length % 2 ^ 64 / 256 ^ (7 - k))) ∧
          (pad .le m)[(pad .le m).length - 8 + k]? = some (BitVec.ofNat 8 (8 * m.length % 2 ^ 64 / 256 ^ k))

/-- k(L) is the least zero fill that makes L + 1 + k + 8 a multiple of 64; that sum is the padded length, and it is
64 · nblk(L) (R140). -/
def Obligations.ZeroFillIsMinimal : Prop :=
  (∀ len : Nat, (len + 1 + zeroFill len + 8) % 64 = 0 ∧ (∀ k, (len + 1 + k + 8) % 64 = 0 → zeroFill len ≤ k) ∧
      len + 1 + zeroFill len + 8 = 64 * nblk len) ∧
    (∀ (e : Endian) (m : List Byte), (pad e m).length = m.length + 1 + zeroFill m.length + 8) ∧
    [0, 55, 56, 63, 64].map zeroFill = [55, 0, 63, 56, 55]

/-- The positional form: block j of pad_E(m), byte by byte, is bytes 64j to 64j+63 of pad_E(m), and it depends only on L and
on the message bytes of the block (R144). -/
def Obligations.PositionalFormIsThePadding : Prop :=
  ∀ (e : Endian) (m : List Byte) (j : Nat), j < nblk m.length →
    ((pad e m).drop (64 * j)).take 64 = padBlock e m.length j ((m.drop (64 * j)).take 64) ∧
      ∀ t < 64, (pad e m)[64 * j + t]? = some
        (if 64 * j + t < m.length then m.getD (64 * j + t) 0
        else if 64 * j + t = m.length then 0x80#8
        else if 64 * j + t < 64 * nblk m.length - 8 then 0
        else (lengthSuffix e m.length).getD (64 * j + t - (64 * nblk m.length - 8)) 0)

/-! The engines (42_sha256.md, 43_md5.md, 44_djb2.md). -/

/-- The schedule of a 64-byte block: sixteen big-endian words, then the recurrence for t in 16..63 (R162, R163). -/
def Obligations.ScheduleFollowsTheRecurrence : Prop :=
  ∀ blk : List Byte, blk.length = 64 →
    (schedule blk).length = 64 ∧
      (∀ t < 16, (schedule blk).getD t 0 =
        be32 (blk.getD (4 * t) 0) (blk.getD (4 * t + 1) 0) (blk.getD (4 * t + 2) 0) (blk.getD (4 * t + 3) 0)) ∧
      ∀ t, 16 ≤ t → t < 64 → (schedule blk).getD t 0 =
        (schedule blk).getD (t - 16) 0 + smallSigma0 ((schedule blk).getD (t - 15) 0) + (schedule blk).getD (t - 7) 0 +
          smallSigma1 ((schedule blk).getD (t - 2) 0)

/-- Each range of 16 MD5 rounds uses every message word exactly once, in the order R194 lists. -/
def Obligations.Md5IndexList : Prop :=
  (List.range 64).map md5Index =
    [0, 1, 2, 3, 4, 5, 6, 7, 8, 9, 10, 11, 12, 13, 14, 15] ++ [1, 6, 11, 0, 5, 10, 15, 4, 9, 14, 3, 8, 13, 2, 7, 12] ++
      [5, 8, 11, 14, 1, 4, 7, 10, 13, 0, 3, 6, 9, 12, 15, 2] ++ [0, 7, 14, 5, 12, 3, 10, 1, 8, 15, 6, 13, 4, 11, 2, 9] ∧
    ∀ r < 4, ∀ t < 16, ∃ i, 16 * r ≤ i ∧ i < 16 * r + 16 ∧ md5Index i = t

/-- The source's own digests, as state words: SHA-256 and MD5 of "" and of "abc" (95_test_vectors.md W1-W4; 90_conflicts.md
C1, C3). -/
def Obligations.SourceDigests : Prop :=
  sha256State [] = ⟨0xE3B0C442#32, 0x98FC1C14#32, 0x9AFBF4C8#32, 0x996FB924#32, 0x27AE41E4#32, 0x649B934C#32,
      0xA495991B#32, 0x7852B855#32⟩ ∧
    sha256State [0x61#8, 0x62#8, 0x63#8] = ⟨0xBA7816BF#32, 0x8F01CFEA#32, 0x414140DE#32, 0x5DAE2223#32, 0xB00361A3#32,
      0x96177A9C#32, 0xB410FF61#32, 0xF20015AD#32⟩ ∧
    md5State [] = ⟨0xD98C1DD4#32, 0x04B2008F#32, 0x980980E9#32, 0x7E42F8EC#32⟩ ∧
    md5State [0x61#8, 0x62#8, 0x63#8] = ⟨0x98500190#32, 0xB04FD23C#32, 0x7D3F96D6#32, 0x727FE128#32⟩

/-- DJB2 over the whole message may be reduced once at the end: the fold on integers from 5381, modulo 2^DJB_W
(R220-R223). -/
def Obligations.Djb2IsTheFoldModuloTheWidth : Prop :=
  ∀ (c : Config) (m : List Byte),
    (djb2 c m).toNat = m.foldl (fun h b => h * 33 + djbExtNat c b) 5381 % 2 ^ djbBits c

/-- The digests are 32 and 16 bytes, their texts 64 and 32 characters (R168, R198, R137). -/
def Obligations.DigestLengths : Prop :=
  ∀ m : List Byte,
    (shaDigest (sha256State m)).length = 32 ∧ (sha256Hex m).length = 64 ∧
      (md5DigestBytes (md5State m)).length = 16 ∧ (md5Hex m).length = 32

/-! Message reads, rendering and the remaining word functions. -/

/-- MsgRead8 and MsgRead32, busy or not: the byte, or the little-endian word, that MSG holds, and nothing else changes; where
a byte read is unwritten, UninitRead and no other effect (R36, R54-R56, R70, R270). -/
def Obligations.MessageReadsReturnTheBytes : Prop :=
  ∀ (s : State) (a : Nat),
    (a < s.cfg.msgCap →
      (∀ b, s.msg.read a = some b → msgRead s 8 a = { s with bus := some (.byte b) }) ∧
        (s.msg.read a = none → msgRead s 8 a = { s with fault := s.fault.add .uninitRead, bus := none })) ∧
    (a % 4 = 0 → a + 3 < s.cfg.msgCap →
      (∀ b0 b1 b2 b3 : Byte, s.msg.holds a [b0, b1, b2, b3] →
          msgRead s 32 a = { s with bus := some (.word (b3 ++ b2 ++ b1 ++ b0)) }) ∧
        ((∃ b < 4, s.msg.read (a + b) = none) →
          msgRead s 32 a = { s with fault := s.fault.add .uninitRead, bus := none }))

/-- Σ0, Σ1, σ0 and σ1, bit by bit: the parity of three bits of the word, of two where the shift has run out
(R107-R110). -/
def Obligations.SigmaFunctionsPerBit : Prop :=
  ∀ (x : Word) (i : Nat), i < 32 →
    (bigSigma0 x).getLsbD i =
        ((x.getLsbD ((i + 2) % 32) ^^ x.getLsbD ((i + 13) % 32)) ^^ x.getLsbD ((i + 22) % 32)) ∧
      (bigSigma1 x).getLsbD i =
        ((x.getLsbD ((i + 6) % 32) ^^ x.getLsbD ((i + 11) % 32)) ^^ x.getLsbD ((i + 25) % 32)) ∧
      (smallSigma0 x).getLsbD i =
        ((x.getLsbD ((i + 7) % 32) ^^ x.getLsbD ((i + 18) % 32)) ^^ (decide (i + 3 < 32) && x.getLsbD (i + 3))) ∧
      (smallSigma1 x).getLsbD i =
        ((x.getLsbD ((i + 17) % 32) ^^ x.getLsbD ((i + 19) % 32)) ^^ (decide (i + 10 < 32) && x.getLsbD (i + 10)))

/-- The SHA-256 digest lists its words most significant byte first, the MD5 digest least significant first (R168, R198);
hexlower gives two characters a byte, the high nibble's first, from 0123456789abcdef (R137). -/
def Obligations.DigestBytesAndHexDigits : Prop :=
  (∀ (h : ShaRegs) (k b : Nat), k < 8 → b < 4 →
    (shaDigest h)[4 * k + b]? =
      some (([h.a, h.b, h.c, h.d, h.e, h.f, h.g, h.h].getD k 0).extractLsb' (8 * (3 - b)) 8)) ∧
    (∀ (s : Md5Regs) (k b : Nat), k < 4 → b < 4 →
      (md5DigestBytes s)[4 * k + b]? = some (([s.a, s.b, s.c, s.d].getD k 0).extractLsb' (8 * b) 8)) ∧
    ∀ bs : List Byte, (hexLower bs).length = 2 * bs.length ∧
      ∀ (t : Nat) (v : Byte), bs[t]? = some v →
        (hexLower bs)[2 * t]? =
            ['0', '1', '2', '3', '4', '5', '6', '7', '8', '9', 'a', 'b', 'c', 'd', 'e', 'f'][v.toNat / 16]? ∧
          (hexLower bs)[2 * t + 1]? =
            ['0', '1', '2', '3', '4', '5', '6', '7', '8', '9', 'a', 'b', 'c', 'd', 'e', 'f'][v.toNat % 16]?

/-- The words an idle core returns at DJB_LO and DJB_HI, assembled as `djb2 s` ends, are ACC, at both widths (R26, R90). That
ACC fits the width is part of the invariant. -/
def Obligations.DjbReadsAssembleToTheAccumulator : Prop :=
  ∀ s : State, s.pend = none → s.acc.toNat < 2 ^ djbBits s.cfg →
    ∃ lo hi : Word,
      regRead s 32 0x018#12 = { s with bus := some (.word lo) } ∧
        regRead s 32 0x01C#12 = { s with bus := some (.word hi) } ∧ djb2Value s.cfg lo hi = s.acc
end

