-- ==== Sys2Proof/Laws/Memory.lean ====
section
/-! SUPPORT. The byte stores: a read after a write, reads of runs of bytes, and that every operation keeps the canonical
form and the bounds. -/

namespace Sys2Proof.Machine

@[simp] theorem Memory.read_nil (a : Nat) : Memory.read [] a = none := rfl

/-- A read after a write gives the byte written at its own address and the old byte everywhere else. -/
theorem Memory.read_write (m : Memory) (a b : Nat) (v : Byte) :
    (m.write a v).read b = if b = a then some v else m.read b := by
  induction m with
  | nil => simp [Memory.write, Memory.read, eq_comm]
  | cons c rest ih =>
    obtain ⟨k, w⟩ := c
    simp only [Memory.write]
    by_cases h1 : a < k
    · simp only [if_pos h1, Memory.read]
      by_cases hb : b = a
      · simp [hb]
      · simp [hb, Ne.symm hb]
    · by_cases h2 : a = k
      · subst h2
        by_cases hb : b = a
        · simp [Memory.read, hb]
        · simp [Memory.read, hb, Ne.symm hb]
      · simp only [if_neg h1, if_neg h2, Memory.read, ih]
        by_cases hk : k = b
        · have : b ≠ a := fun h => h2 (h ▸ hk.symm)
          simp [hk, this]
        · simp [hk]

@[simp] theorem Memory.read_write_same (m : Memory) (a : Nat) (v : Byte) : (m.write a v).read a = some v := by
  simp [Memory.read_write]

theorem Memory.read_write_other (m : Memory) {a b : Nat} (v : Byte) (h : b ≠ a) : (m.write a v).read b = m.read b := by
  simp [Memory.read_write, h]

/-- A read after a run of writes. -/
theorem Memory.read_writeBytes (m : Memory) (a b : Nat) (bs : List Byte) :
    (m.writeBytes a bs).read b = if a ≤ b ∧ b < a + bs.length then bs[b - a]? else m.read b := by
  induction bs generalizing m a with
  | nil =>
    simp [Memory.writeBytes]
  | cons x rest ih =>
    simp only [Memory.writeBytes, ih, Memory.read_write, List.length_cons]
    by_cases h0 : b = a
    · subst h0
      have h1 : ¬ (b + 1 ≤ b ∧ b < b + 1 + rest.length) := by omega
      have h2 : b ≤ b ∧ b < b + (rest.length + 1) := by omega
      rw [if_neg h1, if_pos rfl, if_pos h2]
      simp
    · by_cases h1 : a + 1 ≤ b ∧ b < a + 1 + rest.length
      · have h2 : a ≤ b ∧ b < a + (rest.length + 1) := by omega
        have h3 : b - a = (b - (a + 1)) + 1 := by omega
        rw [if_pos h1, if_pos h2, h3, List.getElem?_cons_succ]
      · have h2 : ¬ (a ≤ b ∧ b < a + (rest.length + 1)) := by omega
        rw [if_neg h1, if_neg h2, if_neg h0]

/-- Addresses outside the run keep their bytes. -/
theorem Memory.read_writeBytes_outside (m : Memory) {a b : Nat} (bs : List Byte) (h : b < a ∨ a + bs.length ≤ b) :
    (m.writeBytes a bs).read b = m.read b := by
  rw [Memory.read_writeBytes, if_neg (by omega)]

theorem Memory.holds_nil (m : Memory) (a : Nat) : m.holds a [] := by
  intro t ht
  simp at ht

theorem Memory.holds_cons (m : Memory) (a : Nat) (b : Byte) (bs : List Byte) :
    m.holds a (b :: bs) ↔ m.read a = some b ∧ m.holds (a + 1) bs := by
  constructor
  · intro h
    refine ⟨by simpa using h 0 (by simp), fun t ht => ?_⟩
    have := h (t + 1) (by simp; omega)
    rw [show a + 1 + t = a + (t + 1) by omega, this]
    simp
  · rintro ⟨h0, h1⟩ t ht
    cases t with
    | zero => simpa using h0
    | succ t =>
      rw [show a + (t + 1) = a + 1 + t by omega, h1 t (by simpa using ht)]
      simp

/-- A run of bytes reads as `bs` exactly when each of them is written and is the byte of `bs`. -/
theorem Memory.readBytes_eq_some (m : Memory) (a n : Nat) (bs : List Byte) :
    m.readBytes a n = some bs ↔ bs.length = n ∧ m.holds a bs := by
  induction n generalizing a bs with
  | zero =>
    cases bs with
    | nil => simp [Memory.readBytes, Memory.holds_nil]
    | cons b bs => simp [Memory.readBytes]
  | succ n ih =>
    cases bs with
    | nil =>
      simp only [Memory.readBytes]
      split <;> simp
    | cons b bs =>
      rw [Memory.holds_cons]
      simp only [Memory.readBytes, List.length_cons, Nat.add_right_cancel_iff]
      split
      · rename_i b' bs' hb hbs
        rw [ih] at hbs
        simp only [Option.some.injEq, List.cons.injEq, hb]
        constructor
        · rintro ⟨rfl, rfl⟩
          exact ⟨hbs.1, rfl, hbs.2⟩
        · rintro ⟨hl, hb', hh⟩
          refine ⟨hb', ?_⟩
          have h1 := (ih (a + 1) bs).2 ⟨hl, hh⟩
          have h2 := (ih (a + 1) bs').2 hbs
          rw [h1] at h2
          exact (Option.some.inj h2).symm
      · rename_i hno
        constructor
        · intro h
          simp at h
        · rintro ⟨hl, hb, hh⟩
          exact absurd ((ih (a + 1) bs).2 ⟨hl, hh⟩) (hno b bs hb)

/-- A run of bytes has no value exactly when one of them is unwritten. -/
theorem Memory.readBytes_eq_none (m : Memory) (a n : Nat) :
    m.readBytes a n = none ↔ ∃ t, t < n ∧ m.read (a + t) = none := by
  induction n generalizing a with
  | zero => simp [Memory.readBytes]
  | succ n ih =>
    simp only [Memory.readBytes]
    cases h0 : m.read a with
    | none => simpa using ⟨0, by omega, by simpa using h0⟩
    | some b =>
      cases h1 : m.readBytes (a + 1) n with
      | none =>
        obtain ⟨t, ht, hr⟩ := (ih (a + 1)).1 h1
        simpa using ⟨t + 1, by omega, by rw [show a + (t + 1) = a + 1 + t by omega]; exact hr⟩
      | some bs =>
        simp only [reduceCtorEq, false_iff]
        rintro ⟨t, ht, hr⟩
        cases t with
        | zero => simp [h0] at hr
        | succ t =>
          have := (ih (a + 1)).2 ⟨t, by omega, by rw [show a + 1 + t = a + (t + 1) by omega]; exact hr⟩
          rw [h1] at this
          simp at this

theorem Memory.readBytes_length {m : Memory} {a n : Nat} {bs : List Byte} (h : m.readBytes a n = some bs) :
    bs.length = n := ((m.readBytes_eq_some a n bs).1 h).1

/-! The canonical form. -/

theorem Memory.risingFrom_mono {lo hi : Nat} {m : Memory} (h : m.risingFrom hi = true) (hl : lo ≤ hi) :
    m.risingFrom lo = true := by
  cases m with
  | nil => rfl
  | cons c rest =>
    obtain ⟨k, w⟩ := c
    simp only [Memory.risingFrom, Bool.and_eq_true, decide_eq_true_eq] at h ⊢
    exact ⟨by omega, h.2⟩

theorem Memory.write_risingFrom {lo : Nat} {m : Memory} {a : Nat} (v : Byte) (h : m.risingFrom lo = true)
    (ha : lo ≤ a) : (m.write a v).risingFrom lo = true := by
  induction m generalizing lo with
  | nil => simp [Memory.write, Memory.risingFrom, ha]
  | cons c rest ih =>
    obtain ⟨k, w⟩ := c
    simp only [Memory.risingFrom, Bool.and_eq_true, decide_eq_true_eq] at h
    simp only [Memory.write]
    by_cases h1 : a < k
    · simp only [if_pos h1, Memory.risingFrom, Bool.and_eq_true, decide_eq_true_eq]
      exact ⟨ha, by omega, h.2⟩
    · by_cases h2 : a = k
      · subst h2
        simp [Memory.risingFrom, ha, h.2]
      · simp only [if_neg h1, if_neg h2, Memory.risingFrom, Bool.and_eq_true, decide_eq_true_eq]
        exact ⟨h.1, ih h.2 (by omega)⟩

/-- A write keeps the canonical form. -/
theorem Memory.write_wf {m : Memory} (a : Nat) (v : Byte) (h : m.wf = true) : (m.write a v).wf = true :=
  Memory.write_risingFrom v h (Nat.zero_le a)

/-- A run of writes keeps the canonical form. -/
theorem Memory.writeBytes_wf {m : Memory} (a : Nat) (bs : List Byte) (h : m.wf = true) :
    (m.writeBytes a bs).wf = true := by
  induction bs generalizing m a with
  | nil => exact h
  | cons b bs ih => exact ih (a + 1) (Memory.write_wf a b h)

/-- A word write keeps the canonical form. -/
theorem Memory.writeWord_wf {m : Memory} (a : Nat) (v : Word) (h : m.wf = true) : (m.writeWord a v).wf = true :=
  Memory.writeBytes_wf a _ h

theorem Memory.write_within {n : Nat} {m : Memory} {a : Nat} (v : Byte) (h : m.within n = true) (ha : a < n) :
    (m.write a v).within n = true := by
  induction m with
  | nil => simp [Memory.write, Memory.within, ha]
  | cons c rest ih =>
    obtain ⟨k, w⟩ := c
    simp only [Memory.within, List.all_cons, Bool.and_eq_true, decide_eq_true_eq] at h ih ⊢
    simp only [Memory.write]
    by_cases h1 : a < k
    · simp [h1, ha, h.1]
      simpa using h.2
    · by_cases h2 : a = k
      · subst h2
        simp [ha]
        simpa using h.2
      · simp only [if_neg h1, if_neg h2, List.all_cons, Bool.and_eq_true, decide_eq_true_eq]
        exact ⟨h.1, ih h.2⟩

theorem Memory.writeBytes_within {n : Nat} {m : Memory} {a : Nat} (bs : List Byte) (h : m.within n = true)
    (ha : a + bs.length ≤ n) : (m.writeBytes a bs).within n = true := by
  induction bs generalizing m a with
  | nil => exact h
  | cons b bs ih =>
    simp only [List.length_cons] at ha
    exact ih (Memory.write_within b h (by omega)) (by omega)

@[simp] theorem leBytes_length (v n : Nat) : (leBytes v n).length = n := by
  induction n generalizing v with
  | zero => rfl
  | succ n ih => simp [leBytes, ih]

@[simp] theorem beBytes_length (v n : Nat) : (beBytes v n).length = n := by
  induction n with
  | zero => rfl
  | succ n ih => simp [beBytes, ih]

theorem Memory.writeWord_within {n : Nat} {m : Memory} {a : Nat} (v : Word) (h : m.within n = true) (ha : a + 4 ≤ n) :
    (m.writeWord a v).within n = true :=
  Memory.writeBytes_within _ h (by simpa using ha)

/-- A word write changes no byte outside its four. -/
theorem Memory.read_writeWord_outside (m : Memory) {a b : Nat} (v : Word) (h : b < a ∨ a + 4 ≤ b) :
    (m.writeWord a v).read b = m.read b :=
  Memory.read_writeBytes_outside m _ (by simpa using h)

/-- Which byte of a word travels in which lane (R55, R58). -/
theorem leBytes_word (v : Word) :
    leBytes v.toNat 4 = [v.extractLsb' 0 8, v.extractLsb' 8 8, v.extractLsb' 16 8, v.extractLsb' 24 8] := by
  simp only [leBytes, List.cons.injEq, and_true]
  refine ⟨?_, ?_, ?_, ?_⟩ <;> apply BitVec.eq_of_toNat_eq <;> simp [Nat.shiftRight_eq_div_pow, Nat.div_div_eq_div_mul]

/-- A byte of a word just written. -/
theorem Memory.read_writeWord (m : Memory) (a : Nat) (v : Word) {lane : Nat} (h : lane < 4) :
    (m.writeWord a v).read (a + lane) = some (v.extractLsb' (8 * lane) 8) := by
  unfold Memory.writeWord
  rw [Memory.read_writeBytes, leBytes_word, if_pos (by simp; omega)]
  interval_cases lane <;> simp

/-- A word read after the same word's write (R298). -/
theorem Memory.readWord_writeWord (m : Memory) (a : Nat) (v : Word) : (m.writeWord a v).readWord a = some v := by
  have h0 := m.read_writeWord a v (show 0 < 4 by omega)
  rw [Nat.add_zero] at h0
  unfold Memory.readWord
  rw [h0, m.read_writeWord a v (show 1 < 4 by omega), m.read_writeWord a v (show 2 < 4 by omega),
    m.read_writeWord a v (show 3 < 4 by omega)]
  simp only [le32, Option.some.injEq]
  ext i hi
  simp only [BitVec.getElem_append, BitVec.getElem_extractLsb']
  repeat' split
  all_goals (simp only [← BitVec.getLsbD_eq_getElem]; congr 1; omega)

end Sys2Proof.Machine
end

