-- ==== Sys2Proof/Laws/State.lean ====
section
/-! SUPPORT. What each named update of State does to each field: one lemma per field per update, true by rfl, so that no
proof unfolds a record update. -/

namespace Sys2Proof.Machine

variable (x : State)

/-! `State.raise` -/

@[simp] theorem State.raise_cfg (e : ErrCode) : (x.raise e).cfg = x.cfg := rfl
@[simp] theorem State.raise_pend (e : ErrCode) : (x.raise e).pend = x.pend := rfl
@[simp] theorem State.raise_err (e : ErrCode) : (x.raise e).err = e := rfl
@[simp] theorem State.raise_len (e : ErrCode) : (x.raise e).len = x.len := rfl
@[simp] theorem State.raise_acc (e : ErrCode) : (x.raise e).acc = x.acc := rfl
@[simp] theorem State.raise_h (e : ErrCode) : (x.raise e).h = x.h := rfl
@[simp] theorem State.raise_s (e : ErrCode) : (x.raise e).s = x.s := rfl
@[simp] theorem State.raise_block (e : ErrCode) : (x.raise e).block = x.block := rfl
@[simp] theorem State.raise_msg (e : ErrCode) : (x.raise e).msg = x.msg := rfl
@[simp] theorem State.raise_fault (e : ErrCode) : (x.raise e).fault = x.fault := rfl
@[simp] theorem State.raise_draws (e : ErrCode) : (x.raise e).draws = x.draws := rfl
@[simp] theorem State.raise_agenda (e : ErrCode) : (x.raise e).agenda = x.agenda := rfl
@[simp] theorem State.raise_bus (e : ErrCode) : (x.raise e).bus = x.bus := rfl

/-! `State.succeed` -/

@[simp] theorem State.succeed_cfg : x.succeed.cfg = x.cfg := rfl
@[simp] theorem State.succeed_pend : x.succeed.pend = x.pend := rfl
@[simp] theorem State.succeed_err : x.succeed.err = .ok := rfl
@[simp] theorem State.succeed_len : x.succeed.len = x.len := rfl
@[simp] theorem State.succeed_acc : x.succeed.acc = x.acc := rfl
@[simp] theorem State.succeed_h : x.succeed.h = x.h := rfl
@[simp] theorem State.succeed_s : x.succeed.s = x.s := rfl
@[simp] theorem State.succeed_block : x.succeed.block = x.block := rfl
@[simp] theorem State.succeed_msg : x.succeed.msg = x.msg := rfl
@[simp] theorem State.succeed_fault : x.succeed.fault = x.fault := rfl
@[simp] theorem State.succeed_draws : x.succeed.draws = x.draws := rfl
@[simp] theorem State.succeed_agenda : x.succeed.agenda = x.agenda := rfl
@[simp] theorem State.succeed_bus : x.succeed.bus = x.bus := rfl

/-! `State.recordFault` -/

@[simp] theorem State.recordFault_cfg (r : Fault) : (x.recordFault r).cfg = x.cfg := rfl
@[simp] theorem State.recordFault_pend (r : Fault) : (x.recordFault r).pend = x.pend := rfl
@[simp] theorem State.recordFault_err (r : Fault) : (x.recordFault r).err = x.err := rfl
@[simp] theorem State.recordFault_len (r : Fault) : (x.recordFault r).len = x.len := rfl
@[simp] theorem State.recordFault_acc (r : Fault) : (x.recordFault r).acc = x.acc := rfl
@[simp] theorem State.recordFault_h (r : Fault) : (x.recordFault r).h = x.h := rfl
@[simp] theorem State.recordFault_s (r : Fault) : (x.recordFault r).s = x.s := rfl
@[simp] theorem State.recordFault_block (r : Fault) : (x.recordFault r).block = x.block := rfl
@[simp] theorem State.recordFault_msg (r : Fault) : (x.recordFault r).msg = x.msg := rfl
@[simp] theorem State.recordFault_fault (r : Fault) : (x.recordFault r).fault = x.fault.add r := rfl
@[simp] theorem State.recordFault_draws (r : Fault) : (x.recordFault r).draws = x.draws := rfl
@[simp] theorem State.recordFault_agenda (r : Fault) : (x.recordFault r).agenda = x.agenda := rfl
@[simp] theorem State.recordFault_bus (r : Fault) : (x.recordFault r).bus = x.bus := rfl

/-! `State.scrambleErr` -/

@[simp] theorem State.scrambleErr_cfg : x.scrambleErr.cfg = x.cfg := rfl
@[simp] theorem State.scrambleErr_pend : x.scrambleErr.pend = x.pend := rfl
@[simp] theorem State.scrambleErr_err : x.scrambleErr.err = ErrCode.ofFree (x.draw 0) := rfl
@[simp] theorem State.scrambleErr_len : x.scrambleErr.len = x.len := rfl
@[simp] theorem State.scrambleErr_acc : x.scrambleErr.acc = x.acc := rfl
@[simp] theorem State.scrambleErr_h : x.scrambleErr.h = x.h := rfl
@[simp] theorem State.scrambleErr_s : x.scrambleErr.s = x.s := rfl
@[simp] theorem State.scrambleErr_block : x.scrambleErr.block = x.block := rfl
@[simp] theorem State.scrambleErr_msg : x.scrambleErr.msg = x.msg := rfl
@[simp] theorem State.scrambleErr_fault : x.scrambleErr.fault = x.fault := rfl
@[simp] theorem State.scrambleErr_draws : x.scrambleErr.draws = x.draws + 1 := rfl
@[simp] theorem State.scrambleErr_agenda : x.scrambleErr.agenda = x.agenda := rfl
@[simp] theorem State.scrambleErr_bus : x.scrambleErr.bus = x.bus := rfl

/-! `State.scrambleH` -/

@[simp] theorem State.scrambleH_cfg : x.scrambleH.cfg = x.cfg := rfl
@[simp] theorem State.scrambleH_pend : x.scrambleH.pend = x.pend := rfl
@[simp] theorem State.scrambleH_err : x.scrambleH.err = x.err := rfl
@[simp] theorem State.scrambleH_len : x.scrambleH.len = x.len := rfl
@[simp] theorem State.scrambleH_acc : x.scrambleH.acc = x.acc := rfl
@[simp] theorem State.scrambleH_s : x.scrambleH.s = x.s := rfl
@[simp] theorem State.scrambleH_block : x.scrambleH.block = x.block := rfl
@[simp] theorem State.scrambleH_msg : x.scrambleH.msg = x.msg := rfl
@[simp] theorem State.scrambleH_fault : x.scrambleH.fault = x.fault := rfl
@[simp] theorem State.scrambleH_draws : x.scrambleH.draws = x.draws + 8 := rfl
@[simp] theorem State.scrambleH_agenda : x.scrambleH.agenda = x.agenda := rfl
@[simp] theorem State.scrambleH_bus : x.scrambleH.bus = x.bus := rfl

theorem State.scrambleH_h : x.scrambleH.h =
    { a := x.draw 0, b := x.draw 1, c := x.draw 2, d := x.draw 3, e := x.draw 4, f := x.draw 5, g := x.draw 6,
      h := x.draw 7 } := rfl

/-! `State.scrambleS` -/

@[simp] theorem State.scrambleS_cfg : x.scrambleS.cfg = x.cfg := rfl
@[simp] theorem State.scrambleS_pend : x.scrambleS.pend = x.pend := rfl
@[simp] theorem State.scrambleS_err : x.scrambleS.err = x.err := rfl
@[simp] theorem State.scrambleS_len : x.scrambleS.len = x.len := rfl
@[simp] theorem State.scrambleS_acc : x.scrambleS.acc = x.acc := rfl
@[simp] theorem State.scrambleS_h : x.scrambleS.h = x.h := rfl
@[simp] theorem State.scrambleS_block : x.scrambleS.block = x.block := rfl
@[simp] theorem State.scrambleS_msg : x.scrambleS.msg = x.msg := rfl
@[simp] theorem State.scrambleS_fault : x.scrambleS.fault = x.fault := rfl
@[simp] theorem State.scrambleS_draws : x.scrambleS.draws = x.draws + 4 := rfl
@[simp] theorem State.scrambleS_agenda : x.scrambleS.agenda = x.agenda := rfl
@[simp] theorem State.scrambleS_bus : x.scrambleS.bus = x.bus := rfl

theorem State.scrambleS_s : x.scrambleS.s =
    { a := x.draw 0, b := x.draw 1, c := x.draw 2, d := x.draw 3 } := rfl

/-! `State.scrambleAcc` -/

@[simp] theorem State.scrambleAcc_cfg : x.scrambleAcc.cfg = x.cfg := rfl
@[simp] theorem State.scrambleAcc_pend : x.scrambleAcc.pend = x.pend := rfl
@[simp] theorem State.scrambleAcc_err : x.scrambleAcc.err = x.err := rfl
@[simp] theorem State.scrambleAcc_len : x.scrambleAcc.len = x.len := rfl
@[simp] theorem State.scrambleAcc_acc : x.scrambleAcc.acc = djbReduce x.cfg (x.draw 0 ++ x.draw 1) := rfl
@[simp] theorem State.scrambleAcc_h : x.scrambleAcc.h = x.h := rfl
@[simp] theorem State.scrambleAcc_s : x.scrambleAcc.s = x.s := rfl
@[simp] theorem State.scrambleAcc_block : x.scrambleAcc.block = x.block := rfl
@[simp] theorem State.scrambleAcc_msg : x.scrambleAcc.msg = x.msg := rfl
@[simp] theorem State.scrambleAcc_fault : x.scrambleAcc.fault = x.fault := rfl
@[simp] theorem State.scrambleAcc_draws : x.scrambleAcc.draws = x.draws + 2 := rfl
@[simp] theorem State.scrambleAcc_agenda : x.scrambleAcc.agenda = x.agenda := rfl
@[simp] theorem State.scrambleAcc_bus : x.scrambleAcc.bus = x.bus := rfl

/-! `State.scrambleBlock` -/

@[simp] theorem State.scrambleBlock_cfg : x.scrambleBlock.cfg = x.cfg := rfl
@[simp] theorem State.scrambleBlock_pend : x.scrambleBlock.pend = x.pend := rfl
@[simp] theorem State.scrambleBlock_err : x.scrambleBlock.err = x.err := rfl
@[simp] theorem State.scrambleBlock_len : x.scrambleBlock.len = x.len := rfl
@[simp] theorem State.scrambleBlock_acc : x.scrambleBlock.acc = x.acc := rfl
@[simp] theorem State.scrambleBlock_h : x.scrambleBlock.h = x.h := rfl
@[simp] theorem State.scrambleBlock_s : x.scrambleBlock.s = x.s := rfl
@[simp] theorem State.scrambleBlock_block : x.scrambleBlock.block = x.block.writeBytes 0 (x.freeBytes 64) := rfl
@[simp] theorem State.scrambleBlock_msg : x.scrambleBlock.msg = x.msg := rfl
@[simp] theorem State.scrambleBlock_fault : x.scrambleBlock.fault = x.fault := rfl
@[simp] theorem State.scrambleBlock_draws : x.scrambleBlock.draws = x.draws + 64 := rfl
@[simp] theorem State.scrambleBlock_agenda : x.scrambleBlock.agenda = x.agenda := rfl
@[simp] theorem State.scrambleBlock_bus : x.scrambleBlock.bus = x.bus := rfl

/-! `State.setBlock` -/

@[simp] theorem State.setBlock_cfg (bs : List Byte) : (x.setBlock bs).cfg = x.cfg := rfl
@[simp] theorem State.setBlock_pend (bs : List Byte) : (x.setBlock bs).pend = x.pend := rfl
@[simp] theorem State.setBlock_err (bs : List Byte) : (x.setBlock bs).err = x.err := rfl
@[simp] theorem State.setBlock_len (bs : List Byte) : (x.setBlock bs).len = x.len := rfl
@[simp] theorem State.setBlock_acc (bs : List Byte) : (x.setBlock bs).acc = x.acc := rfl
@[simp] theorem State.setBlock_h (bs : List Byte) : (x.setBlock bs).h = x.h := rfl
@[simp] theorem State.setBlock_s (bs : List Byte) : (x.setBlock bs).s = x.s := rfl
@[simp] theorem State.setBlock_block (bs : List Byte) : (x.setBlock bs).block = x.block.writeBytes 0 bs := rfl
@[simp] theorem State.setBlock_msg (bs : List Byte) : (x.setBlock bs).msg = x.msg := rfl
@[simp] theorem State.setBlock_fault (bs : List Byte) : (x.setBlock bs).fault = x.fault := rfl
@[simp] theorem State.setBlock_draws (bs : List Byte) : (x.setBlock bs).draws = x.draws := rfl
@[simp] theorem State.setBlock_agenda (bs : List Byte) : (x.setBlock bs).agenda = x.agenda := rfl
@[simp] theorem State.setBlock_bus (bs : List Byte) : (x.setBlock bs).bus = x.bus := rfl

/-! `State.release` -/

@[simp] theorem State.release_cfg : x.release.cfg = x.cfg := rfl
@[simp] theorem State.release_pend : x.release.pend = none := rfl
@[simp] theorem State.release_err : x.release.err = x.err := rfl
@[simp] theorem State.release_len : x.release.len = x.len := rfl
@[simp] theorem State.release_acc : x.release.acc = x.acc := rfl
@[simp] theorem State.release_h : x.release.h = x.h := rfl
@[simp] theorem State.release_s : x.release.s = x.s := rfl
@[simp] theorem State.release_block : x.release.block = x.block := rfl
@[simp] theorem State.release_msg : x.release.msg = x.msg := rfl
@[simp] theorem State.release_fault : x.release.fault = x.fault := rfl
@[simp] theorem State.release_draws : x.release.draws = x.draws := rfl
@[simp] theorem State.release_agenda : x.release.agenda = x.agenda := rfl
@[simp] theorem State.release_bus : x.release.bus = x.bus := rfl

/-! `State.returns` -/

@[simp] theorem State.returns_cfg (v : BusValue) : (x.returns v).cfg = x.cfg := rfl
@[simp] theorem State.returns_pend (v : BusValue) : (x.returns v).pend = x.pend := rfl
@[simp] theorem State.returns_err (v : BusValue) : (x.returns v).err = x.err := rfl
@[simp] theorem State.returns_len (v : BusValue) : (x.returns v).len = x.len := rfl
@[simp] theorem State.returns_acc (v : BusValue) : (x.returns v).acc = x.acc := rfl
@[simp] theorem State.returns_h (v : BusValue) : (x.returns v).h = x.h := rfl
@[simp] theorem State.returns_s (v : BusValue) : (x.returns v).s = x.s := rfl
@[simp] theorem State.returns_block (v : BusValue) : (x.returns v).block = x.block := rfl
@[simp] theorem State.returns_msg (v : BusValue) : (x.returns v).msg = x.msg := rfl
@[simp] theorem State.returns_fault (v : BusValue) : (x.returns v).fault = x.fault := rfl
@[simp] theorem State.returns_draws (v : BusValue) : (x.returns v).draws = x.draws := rfl
@[simp] theorem State.returns_agenda (v : BusValue) : (x.returns v).agenda = x.agenda := rfl
@[simp] theorem State.returns_bus (v : BusValue) : (x.returns v).bus = some v := rfl

/-! `State.returnsNothing` -/

@[simp] theorem State.returnsNothing_cfg : x.returnsNothing.cfg = x.cfg := rfl
@[simp] theorem State.returnsNothing_pend : x.returnsNothing.pend = x.pend := rfl
@[simp] theorem State.returnsNothing_err : x.returnsNothing.err = x.err := rfl
@[simp] theorem State.returnsNothing_len : x.returnsNothing.len = x.len := rfl
@[simp] theorem State.returnsNothing_acc : x.returnsNothing.acc = x.acc := rfl
@[simp] theorem State.returnsNothing_h : x.returnsNothing.h = x.h := rfl
@[simp] theorem State.returnsNothing_s : x.returnsNothing.s = x.s := rfl
@[simp] theorem State.returnsNothing_block : x.returnsNothing.block = x.block := rfl
@[simp] theorem State.returnsNothing_msg : x.returnsNothing.msg = x.msg := rfl
@[simp] theorem State.returnsNothing_fault : x.returnsNothing.fault = x.fault := rfl
@[simp] theorem State.returnsNothing_draws : x.returnsNothing.draws = x.draws := rfl
@[simp] theorem State.returnsNothing_agenda : x.returnsNothing.agenda = x.agenda := rfl
@[simp] theorem State.returnsNothing_bus : x.returnsNothing.bus = none := rfl

/-! `State.accessFault` -/

@[simp] theorem State.accessFault_cfg (r : Fault) : (x.accessFault r).cfg = x.cfg := rfl
@[simp] theorem State.accessFault_pend (r : Fault) : (x.accessFault r).pend = x.pend := rfl
@[simp] theorem State.accessFault_err (r : Fault) : (x.accessFault r).err = x.err := rfl
@[simp] theorem State.accessFault_len (r : Fault) : (x.accessFault r).len = x.len := rfl
@[simp] theorem State.accessFault_acc (r : Fault) : (x.accessFault r).acc = x.acc := rfl
@[simp] theorem State.accessFault_h (r : Fault) : (x.accessFault r).h = x.h := rfl
@[simp] theorem State.accessFault_s (r : Fault) : (x.accessFault r).s = x.s := rfl
@[simp] theorem State.accessFault_block (r : Fault) : (x.accessFault r).block = x.block := rfl
@[simp] theorem State.accessFault_msg (r : Fault) : (x.accessFault r).msg = x.msg := rfl
@[simp] theorem State.accessFault_fault (r : Fault) : (x.accessFault r).fault = x.fault.add r := rfl
@[simp] theorem State.accessFault_draws (r : Fault) : (x.accessFault r).draws = x.draws := rfl
@[simp] theorem State.accessFault_agenda (r : Fault) : (x.accessFault r).agenda = x.agenda := rfl
@[simp] theorem State.accessFault_bus (r : Fault) : (x.accessFault r).bus = none := rfl

/-! `State.returnsAny` -/

@[simp] theorem State.returnsAny_cfg : x.returnsAny.cfg = x.cfg := rfl
@[simp] theorem State.returnsAny_pend : x.returnsAny.pend = x.pend := rfl
@[simp] theorem State.returnsAny_err : x.returnsAny.err = x.err := rfl
@[simp] theorem State.returnsAny_len : x.returnsAny.len = x.len := rfl
@[simp] theorem State.returnsAny_acc : x.returnsAny.acc = x.acc := rfl
@[simp] theorem State.returnsAny_h : x.returnsAny.h = x.h := rfl
@[simp] theorem State.returnsAny_s : x.returnsAny.s = x.s := rfl
@[simp] theorem State.returnsAny_block : x.returnsAny.block = x.block := rfl
@[simp] theorem State.returnsAny_msg : x.returnsAny.msg = x.msg := rfl
@[simp] theorem State.returnsAny_fault : x.returnsAny.fault = x.fault := rfl
@[simp] theorem State.returnsAny_draws : x.returnsAny.draws = x.draws + 1 := rfl
@[simp] theorem State.returnsAny_agenda : x.returnsAny.agenda = x.agenda := rfl
@[simp] theorem State.returnsAny_bus : x.returnsAny.bus = some (.word (x.draw 0)) := rfl

/-! `State.setLenLo` -/

@[simp] theorem State.setLenLo_cfg (v : Word) : (x.setLenLo v).cfg = x.cfg := rfl
@[simp] theorem State.setLenLo_pend (v : Word) : (x.setLenLo v).pend = x.pend := rfl
@[simp] theorem State.setLenLo_err (v : Word) : (x.setLenLo v).err = x.err := rfl
@[simp] theorem State.setLenLo_len (v : Word) : (x.setLenLo v).len = x.len.extractLsb' 32 32 ++ v := rfl
@[simp] theorem State.setLenLo_acc (v : Word) : (x.setLenLo v).acc = x.acc := rfl
@[simp] theorem State.setLenLo_h (v : Word) : (x.setLenLo v).h = x.h := rfl
@[simp] theorem State.setLenLo_s (v : Word) : (x.setLenLo v).s = x.s := rfl
@[simp] theorem State.setLenLo_block (v : Word) : (x.setLenLo v).block = x.block := rfl
@[simp] theorem State.setLenLo_msg (v : Word) : (x.setLenLo v).msg = x.msg := rfl
@[simp] theorem State.setLenLo_fault (v : Word) : (x.setLenLo v).fault = x.fault := rfl
@[simp] theorem State.setLenLo_draws (v : Word) : (x.setLenLo v).draws = x.draws := rfl
@[simp] theorem State.setLenLo_agenda (v : Word) : (x.setLenLo v).agenda = x.agenda := rfl
@[simp] theorem State.setLenLo_bus (v : Word) : (x.setLenLo v).bus = x.bus := rfl

/-! `State.setLenHi` -/

@[simp] theorem State.setLenHi_cfg (v : Word) : (x.setLenHi v).cfg = x.cfg := rfl
@[simp] theorem State.setLenHi_pend (v : Word) : (x.setLenHi v).pend = x.pend := rfl
@[simp] theorem State.setLenHi_err (v : Word) : (x.setLenHi v).err = x.err := rfl
@[simp] theorem State.setLenHi_len (v : Word) : (x.setLenHi v).len = v ++ x.len.extractLsb' 0 32 := rfl
@[simp] theorem State.setLenHi_acc (v : Word) : (x.setLenHi v).acc = x.acc := rfl
@[simp] theorem State.setLenHi_h (v : Word) : (x.setLenHi v).h = x.h := rfl
@[simp] theorem State.setLenHi_s (v : Word) : (x.setLenHi v).s = x.s := rfl
@[simp] theorem State.setLenHi_block (v : Word) : (x.setLenHi v).block = x.block := rfl
@[simp] theorem State.setLenHi_msg (v : Word) : (x.setLenHi v).msg = x.msg := rfl
@[simp] theorem State.setLenHi_fault (v : Word) : (x.setLenHi v).fault = x.fault := rfl
@[simp] theorem State.setLenHi_draws (v : Word) : (x.setLenHi v).draws = x.draws := rfl
@[simp] theorem State.setLenHi_agenda (v : Word) : (x.setLenHi v).agenda = x.agenda := rfl
@[simp] theorem State.setLenHi_bus (v : Word) : (x.setLenHi v).bus = x.bus := rfl

/-! `State.applyReset` -/

@[simp] theorem State.applyReset_cfg : x.applyReset.cfg = x.cfg := rfl
@[simp] theorem State.applyReset_pend : x.applyReset.pend = none := rfl
@[simp] theorem State.applyReset_err : x.applyReset.err = .ok := rfl
@[simp] theorem State.applyReset_len : x.applyReset.len = 0 := rfl
@[simp] theorem State.applyReset_acc : x.applyReset.acc = djbSeed := rfl
@[simp] theorem State.applyReset_h : x.applyReset.h = ivSha := rfl
@[simp] theorem State.applyReset_s : x.applyReset.s = ivMd5 := rfl
@[simp] theorem State.applyReset_block : x.applyReset.block = [] := rfl
@[simp] theorem State.applyReset_msg : x.applyReset.msg = [] := rfl
@[simp] theorem State.applyReset_fault : x.applyReset.fault = x.fault := rfl
@[simp] theorem State.applyReset_draws : x.applyReset.draws = x.draws := rfl
@[simp] theorem State.applyReset_agenda : x.applyReset.agenda = x.agenda := rfl
@[simp] theorem State.applyReset_bus : x.applyReset.bus = none := rfl

end Sys2Proof.Machine
end

