-- ==== Sys2Proof/Laws/Commands.lean ====
section
/-! SUPPORT. One lemma per shared operation of the commands: everything it can do. Proofs cite these and do not unfold the
operations. -/

namespace Sys2Proof.Machine

/-! How a command ends (R242). -/

@[simp] theorem complete_ok (s : State) (bs : List Byte) (w : List Byte → State) (scr : State → State) :
    complete s (.ok bs) w scr = .next (w bs).succeed := rfl

@[simp] theorem complete_raised (s : State) (e : ErrCode) (w : List Byte → State) (scr : State → State) :
    complete s (.error (.raised e)) w scr = .next (s.raise e) := rfl

@[simp] theorem complete_faulted (s : State) (r : Fault) (w : List Byte → State) (scr : State → State) :
    complete s (.error (.faulted r)) w scr = .next (scr (s.recordFault r)).scrambleErr := rfl

/-- A command answers a next state, in one of three ways: success, a raised error, a recorded fault. -/
theorem complete_cases {s t : State} {operand : Except Stop (List Byte)} {w : List Byte → State} {scr : State → State}
    (h : complete s operand w scr = .next t) :
    (∃ bs, operand = .ok bs ∧ t = (w bs).succeed) ∨
      (∃ e, operand = .error (.raised e) ∧ t = s.raise e) ∨
      (∃ r, operand = .error (.faulted r) ∧ t = (scr (s.recordFault r)).scrambleErr) := by
  match operand, h with
  | .ok bs, h => exact .inl ⟨bs, rfl, by cases h; rfl⟩
  | .error (.raised e), h => exact .inr (.inl ⟨e, rfl, by cases h; rfl⟩)
  | .error (.faulted r), h => exact .inr (.inr ⟨r, rfl, by cases h; rfl⟩)

/-! What a command reads, and when it stops (R266). -/

theorem needBytes_ok {m : Memory} {a n : Nat} {bs : List Byte} :
    needBytes m a n = .ok bs ↔ bs.length = n ∧ m.holds a bs := by
  rw [← Memory.readBytes_eq_some]
  unfold needBytes
  split <;> simp_all

theorem needBytes_of_holds {m : Memory} {a n : Nat} {bs : List Byte} (hl : bs.length = n) (h : m.holds a bs) :
    needBytes m a n = .ok bs := needBytes_ok.2 ⟨hl, h⟩

theorem needBytes_faulted {m : Memory} {a n : Nat} :
    needBytes m a n = .error (.faulted .uninitRead) ↔ ∃ t, t < n ∧ m.read (a + t) = none := by
  rw [← Memory.readBytes_eq_none]
  unfold needBytes
  split <;> simp_all

/-- Reading bytes gives them or faults UninitRead. -/
theorem needBytes_cases (m : Memory) (a n : Nat) :
    (∃ bs, needBytes m a n = .ok bs ∧ bs.length = n) ∨ needBytes m a n = .error (.faulted .uninitRead) := by
  unfold needBytes
  split
  · rename_i bs h
    exact .inl ⟨bs, rfl, Memory.readBytes_length h⟩
  · exact .inr rfl

theorem blockOperand_of_holds {s : State} {blk : List Byte} (hl : blk.length = 64) (h : s.block.holds 0 blk) :
    blockOperand s = .ok blk := needBytes_of_holds hl h

theorem messageOperand_of_hasMessage {s : State} {m : List Byte} (h : s.hasMessage m) : messageOperand s = .ok m := by
  obtain ⟨hl, hc, hm⟩ := h
  unfold messageOperand
  rw [if_neg (by omega)]
  exact needBytes_of_holds hl hm

theorem messageOperand_capacity {s : State} (h : s.cfg.msgCap < s.len.toNat) :
    messageOperand s = .error (.raised .capacity) := by
  unfold messageOperand
  rw [if_pos h]

theorem segmentOperand_capacity {s : State} (j : DWord) (h : s.cfg.msgCap < s.len.toNat) :
    segmentOperand s j = .error (.raised .capacity) := by
  unfold segmentOperand
  rw [if_pos h]

theorem segmentOperand_index {s : State} {j : DWord} (hc : s.len.toNat ≤ s.cfg.msgCap)
    (h : nblk s.len.toNat ≤ j.toNat) : segmentOperand s j = .error (.raised .index) := by
  unfold segmentOperand
  rw [if_neg (by omega), if_pos h]

theorem segmentOperand_reads {s : State} {j : DWord} (hc : s.len.toNat ≤ s.cfg.msgCap)
    (h : j.toNat < nblk s.len.toNat) :
    segmentOperand s j =
      needBytes s.msg (64 * j.toNat) (min s.len.toNat (64 * j.toNat + 64) - 64 * j.toNat) := by
  unfold segmentOperand
  rw [if_neg (by omega), if_neg (by omega)]

/-- Reading the message: CAPACITY, its bytes, or the UninitRead fault (R262, R266). -/
theorem messageOperand_cases (s : State) :
    (messageOperand s = .error (.raised .capacity) ∧ s.cfg.msgCap < s.len.toNat) ∨
    (s.len.toNat ≤ s.cfg.msgCap ∧ ((∃ m, messageOperand s = .ok m) ∨ messageOperand s = .error (.faulted .uninitRead))) := by
  by_cases h : s.cfg.msgCap < s.len.toNat
  · exact .inl ⟨messageOperand_capacity h, h⟩
  · refine .inr ⟨by omega, ?_⟩
    unfold messageOperand
    rw [if_neg h]
    obtain ⟨bs, h, -⟩ | h := needBytes_cases s.msg 0 s.len.toNat
    · exact .inl ⟨bs, h⟩
    · exact .inr h

/-- Reading a block's segment: CAPACITY, INDEX, its bytes, or the UninitRead fault (R262, R263, R266). -/
theorem segmentOperand_cases (s : State) (j : DWord) :
    (segmentOperand s j = .error (.raised .capacity) ∧ s.cfg.msgCap < s.len.toNat) ∨
    (segmentOperand s j = .error (.raised .index) ∧ s.len.toNat ≤ s.cfg.msgCap ∧ nblk s.len.toNat ≤ j.toNat) ∨
    (s.len.toNat ≤ s.cfg.msgCap ∧ j.toNat < nblk s.len.toNat ∧ ((∃ m, segmentOperand s j = .ok m) ∨ segmentOperand s j = .error (.faulted .uninitRead))) := by
  by_cases h : s.cfg.msgCap < s.len.toNat
  · exact .inl ⟨segmentOperand_capacity j h, h⟩
  · by_cases h2 : nblk s.len.toNat ≤ j.toNat
    · exact .inr (.inl ⟨segmentOperand_index (by omega) h2, by omega, h2⟩)
    · refine .inr (.inr ⟨by omega, by omega, ?_⟩)
      rw [segmentOperand_reads (by omega) (by omega)]
      obtain ⟨bs, h, -⟩ | h := needBytes_cases s.msg (64 * j.toNat) (min s.len.toNat (64 * j.toNat + 64) - 64 * j.toNat)
      · exact .inl ⟨bs, h⟩
      · exact .inr h

/-- Reading BLOCK: its bytes, or the UninitRead fault (R170, R200). -/
theorem blockOperand_cases (s : State) : (∃ m, blockOperand s = .ok m) ∨ blockOperand s = .error (.faulted .uninitRead) := by
  obtain ⟨bs, h, -⟩ | h := needBytes_cases s.block 0 64
  · exact .inl ⟨bs, h⟩
  · exact .inr h

/-- Which errors and faults a command's reads can end in. -/
inductive StopsWith : Except Stop (List Byte) → Prop
  | bytes (bs : List Byte) : StopsWith (.ok bs)
  | capacity : StopsWith (.error (.raised .capacity))
  | index : StopsWith (.error (.raised .index))
  | uninit : StopsWith (.error (.faulted .uninitRead))

theorem needBytes_stopsWith (m : Memory) (a n : Nat) : StopsWith (needBytes m a n) := by
  obtain ⟨bs, h, -⟩ | h := needBytes_cases m a n <;> rw [h]
  · exact .bytes bs
  · exact .uninit

theorem blockOperand_stopsWith (s : State) : StopsWith (blockOperand s) := needBytes_stopsWith _ _ _

theorem messageOperand_stopsWith (s : State) : StopsWith (messageOperand s) := by
  unfold messageOperand
  split
  · exact .capacity
  · exact needBytes_stopsWith _ _ _

theorem segmentOperand_stopsWith (s : State) (j : DWord) : StopsWith (segmentOperand s j) := by
  unfold segmentOperand
  split
  · exact .capacity
  · split
    · exact .index
    · exact needBytes_stopsWith _ _ _

/-- Every command is one `complete`, and only the commands that read MSG or BLOCK can end in anything but success. -/
theorem exec_shape (i : Instr) (s : State) :
    ∃ op w scr, exec i s = complete s op w scr ∧ StopsWith op ∧
      ((readsMessage i = false ∧ readsBlock i = false) → ∃ bs, op = .ok bs) := by
  cases i with
  | nop => exact ⟨.ok [], fun _ => s, id, rfl, .bytes _, fun _ => ⟨_, rfl⟩⟩
  | shaInit => exact ⟨.ok [], fun _ => { s with h := ivSha }, id, rfl, .bytes _, fun _ => ⟨_, rfl⟩⟩
  | shaBlock => exact ⟨_, _, _, rfl, blockOperand_stopsWith s, fun h => by cases h.2⟩
  | shaMsg => exact ⟨_, _, _, rfl, messageOperand_stopsWith s, fun h => by cases h.1⟩
  | padblkSha j => exact ⟨_, _, _, rfl, segmentOperand_stopsWith s j, fun h => by cases h.1⟩
  | md5Init => exact ⟨.ok [], fun _ => { s with s := ivMd5 }, id, rfl, .bytes _, fun _ => ⟨_, rfl⟩⟩
  | md5Block => exact ⟨_, _, _, rfl, blockOperand_stopsWith s, fun h => by cases h.2⟩
  | md5Msg => exact ⟨_, _, _, rfl, messageOperand_stopsWith s, fun h => by cases h.1⟩
  | padblkMd5 j => exact ⟨_, _, _, rfl, segmentOperand_stopsWith s j, fun h => by cases h.1⟩
  | djbInit => exact ⟨.ok [], fun _ => { s with acc := djbSeed }, id, rfl, .bytes _, fun _ => ⟨_, rfl⟩⟩
  | djbByte b => exact ⟨.ok [], fun _ => { s with acc := djbStep s.cfg s.acc b }, id, rfl, .bytes _, fun _ => ⟨_, rfl⟩⟩
  | djbMsg => exact ⟨_, _, _, rfl, messageOperand_stopsWith s, fun h => by cases h.1⟩

/-! The core's turn and the step (R6, R242). -/

@[simp] theorem coreTurn_idle {s : State} (h : s.pend = none) : coreTurn s = .next s := by
  unfold coreTurn
  rw [h]

theorem coreTurn_pending {s : State} {c : Word} (h : s.pend = some c) : coreTurn s = completeWord c s := by
  unfold coreTurn
  rw [h]

theorem completeWord_command {c : Word} {i : Instr} (h : decode c = .ok i) (s : State) :
    completeWord c s = exec i s.release := by
  unfold completeWord
  rw [h]

theorem completeWord_illegal {c : Word} {e : DecodeError} (h : decode c = .error e) (s : State) :
    completeWord c s = .next (s.release.raise .illegal) := by
  unfold completeWord
  rw [h]
  rfl

/-- The core's turn: idle, a command, or an illegal word. -/
theorem coreTurn_cases {s t : State} (h : coreTurn s = .next t) :
    (s.pend = none ∧ t = s) ∨
      (∃ c i, s.pend = some c ∧ decode c = .ok i ∧ exec i s.release = .next t) ∨
      (∃ c e, s.pend = some c ∧ decode c = .error e ∧ t = s.release.raise .illegal) := by
  cases hp : s.pend with
  | none =>
    rw [coreTurn_idle hp] at h
    exact .inl ⟨rfl, by cases h; rfl⟩
  | some c =>
    rw [coreTurn_pending hp] at h
    cases hd : decode c with
    | ok i =>
      rw [completeWord_command hd] at h
      exact .inr (.inl ⟨c, i, rfl, hd, h⟩)
    | error e =>
      rw [completeWord_illegal hd] at h
      exact .inr (.inr ⟨c, e, rfl, hd, by cases h; rfl⟩)

@[simp] theorem step_nil {s : State} (h : s.agenda = []) : step s = coreTurn s := by
  unfold step
  rw [h]

@[simp] theorem step_cons {s : State} {e : Event} {rest : List Event} (h : s.agenda = e :: rest) :
    step s = act e { s with agenda := rest } := by
  unfold step
  rw [h]

/-- A step: the core's turn, a host access, or reset. -/
theorem step_cases {s t : State} (h : step s = .next t) :
    (s.agenda = [] ∧ coreTurn s = .next t) ∨
      (∃ rest, s.agenda = .core :: rest ∧ coreTurn { s with agenda := rest } = .next t) ∨
      (∃ x rest, s.agenda = .host x :: rest ∧ t = hostAccess { s with agenda := rest } x) ∨
      (∃ rest, s.agenda = .reset :: rest ∧ t = { s with agenda := rest }.applyReset) := by
  cases ha : s.agenda with
  | nil => exact .inl ⟨rfl, by rwa [step_nil ha] at h⟩
  | cons e rest =>
    rw [step_cons ha] at h
    cases e with
    | core => exact .inr (.inl ⟨rest, rfl, h⟩)
    | host x => exact .inr (.inr (.inl ⟨x, rest, rfl, by cases h; rfl⟩))
    | reset => exact .inr (.inr (.inr ⟨rest, rfl, by cases h; rfl⟩))

/-- On the core's turn a step is the core's, with the turn taken. -/
theorem step_core {s : State} (h : s.coreMoves) : step s = coreTurn { s with agenda := s.agenda.tail } := by
  obtain h | ⟨rest, h⟩ := h
  · rw [step_nil h, h]
    congr 1
    cases s; simp_all
  · rw [step_cons h, h]; rfl

/-- On the core's turn a pending word that does not decode raises ILLEGAL (R244). -/
theorem step_illegal {s : State} {c : Word} {e : DecodeError} (hm : s.coreMoves) (hp : s.pend = some c)
    (hd : decode c = .error e) : step s = .next (s.taken.raise .illegal) := by
  rw [step_core hm, coreTurn_pending (s := { s with agenda := s.agenda.tail }) hp, completeWord_illegal hd]
  rfl

/-! FAULT. -/

theorem FaultSet.has_add (fs : FaultSet) (r : Fault) : (fs.add r).has r = true := by
  rcases r with (_ | _ | _ | _) | _ <;> rfl

theorem FaultSet.has_add_mono (fs : FaultSet) (r q : Fault) (h : fs.has r = true) : (fs.add q).has r = true := by
  rcases r with (_ | _ | _ | _) | _ <;> rcases q with (_ | _ | _ | _) | _ <;> simp_all [FaultSet.has, FaultSet.add]

theorem FaultSet.has_none (r : Fault) : FaultSet.none.has r = false := by
  rcases r with (_ | _ | _ | _) | _ <;> rfl

/-- FAULT = none exactly when it holds no reason (R37). -/
theorem FaultSet.eq_none_iff (fs : FaultSet) : fs = FaultSet.none ↔ ∀ r, fs.has r = false := by
  constructor
  · rintro rfl r
    exact FaultSet.has_none r
  · intro h
    have h1 := h (.hostProtocol .regAccess)
    have h2 := h (.hostProtocol .msgAccess)
    have h3 := h (.hostProtocol .cmdWhileBusy)
    have h4 := h (.hostProtocol .writeWhileBusy)
    have h5 := h .uninitRead
    cases fs
    simp_all [FaultSet.has, FaultSet.none]

end Sys2Proof.Machine
end

