-- ==== Sys2Proof/Laws/Decode.lean ====
section
/-! SUPPORT. The two fields of a command word, and what each operand form answers (30_encoding.md rules R80-R85). -/

namespace Sys2Proof

@[simp] theorem opField_commandWord (op : BitVec 8) (arg : BitVec 24) : opField (commandWord op arg) = op := by
  apply BitVec.eq_of_getLsbD_eq
  intro i hi
  simp only [opField, commandWord, BitVec.getLsbD_extractLsb', BitVec.getLsbD_append]
  simp [hi]

@[simp] theorem argField_commandWord (op : BitVec 8) (arg : BitVec 24) : argField (commandWord op arg) = arg := by
  apply BitVec.eq_of_getLsbD_eq
  intro i hi
  simp only [argField, commandWord, BitVec.getLsbD_extractLsb', BitVec.getLsbD_append]
  simp [hi]

@[simp] theorem commandWord_fields (c : Word) : commandWord (opField c) (argField c) = c := by
  apply BitVec.eq_of_getLsbD_eq
  intro i hi
  simp only [opField, argField, commandWord, BitVec.getLsbD_extractLsb', BitVec.getLsbD_append]
  by_cases h : i < 8
  · simp [h]
  · simp [h, show i - 8 < 24 by omega, show 8 + (i - 8) = i by omega]

@[simp] theorem decode_commandWord (op : BitVec 8) (arg : BitVec 24) : decode (commandWord op arg) = decodeFields op arg := by
  simp [decode]

theorem decode_encode_fields (i : Instr) : decode (encode i) = decodeFields i.op i.arg := by
  simp [encode]

/-- A word with mask 0x000000FF keeps its OP field alone. -/
theorem and_opMask (c : Word) : c &&& 0x000000FF#32 = (opField c).setWidth 32 := by
  apply BitVec.eq_of_getLsbD_eq
  intro i hi
  have hm : (0x000000FF#32).getLsbD i = decide (i < 8) := by
    have : ∀ k : Fin 32, (0x000000FF#32).getLsbD k.val = decide (k.val < 8) := by decide
    exact this ⟨i, hi⟩
  rw [BitVec.getLsbD_and, hm]
  simp only [opField, BitVec.getLsbD_setWidth, BitVec.getLsbD_extractLsb']
  by_cases h : i < 8 <;> simp [h, hi]

/-- With the mask of form B, ARG[23:8] and OP are kept. -/
theorem commandWord_and_byteMask (op : BitVec 8) (arg : BitVec 24) :
    commandWord op arg &&& 0xFFFF00FF#32 = commandWord op (arg &&& 0xFFFF00#24) := by
  apply BitVec.eq_of_getLsbD_eq
  intro i hi
  have hm : (0xFFFF00FF#32).getLsbD i = if i < 8 then true else (0xFFFF00#24).getLsbD (i - 8) := by
    have : ∀ k : Fin 32, (0xFFFF00FF#32).getLsbD k.val =
        if k.val < 8 then true else (0xFFFF00#24).getLsbD (k.val - 8) := by decide
    exact this ⟨i, hi⟩
  rw [BitVec.getLsbD_and, hm]
  simp only [commandWord, BitVec.getLsbD_append, BitVec.getLsbD_and]
  by_cases h : i < 8 <;> simp [h]

/-! What each form answers (R83). -/

theorem formZ_ok {arg : BitVec 24} {i k : Instr} (h : formZ arg k = .ok i) : i = k ∧ arg = 0 := by
  unfold formZ at h
  split at h
  · rename_i ha
    exact ⟨(Except.ok.inj h).symm, ha⟩
  · cases h

theorem formB_ok {arg : BitVec 24} {i : Instr} {mk : Byte → Instr} (h : formB arg mk = .ok i) :
    ∃ b : Byte, i = mk b ∧ arg = b.setWidth 24 := by
  unfold formB at h
  split at h
  · rename_i hz
    refine ⟨_, (Except.ok.inj h).symm, ?_⟩
    apply BitVec.eq_of_toNat_eq
    have := congrArg BitVec.toNat hz
    simp [BitVec.extractLsb'_toNat] at this ⊢
    omega
  · cases h

theorem formJ_ok {arg : BitVec 24} {i : Instr} {mk : DWord → Instr} (h : formJ arg mk = .ok i) :
    ∃ j : DWord, i = mk j ∧ j.toNat < 2 ^ 24 ∧ arg = j.setWidth 24 := by
  refine ⟨arg.setWidth 64, (Except.ok.inj h).symm, ?_, ?_⟩
  · simp
    omega
  · simp

/-- What decodes is a well-formed command with exactly these two fields. -/
theorem decodeFields_ok {op : BitVec 8} {arg : BitVec 24} {i : Instr} (h : decodeFields op arg = .ok i) :
    i.WellFormed ∧ i.op = op ∧ i.arg = arg := by
  unfold decodeFields at h
  by_cases hnop : op = 0x00#8
  · rw [if_pos hnop] at h
    subst hnop
    obtain ⟨rfl, rfl⟩ := formZ_ok h
    exact ⟨rfl, rfl, rfl⟩
  rw [if_neg hnop] at h
  by_cases hshaInit : op = 0x01#8
  · rw [if_pos hshaInit] at h
    subst hshaInit
    obtain ⟨rfl, rfl⟩ := formZ_ok h
    exact ⟨rfl, rfl, rfl⟩
  rw [if_neg hshaInit] at h
  by_cases hshaBlock : op = 0x02#8
  · rw [if_pos hshaBlock] at h
    subst hshaBlock
    obtain ⟨rfl, rfl⟩ := formZ_ok h
    exact ⟨rfl, rfl, rfl⟩
  rw [if_neg hshaBlock] at h
  by_cases hshaMsg : op = 0x03#8
  · rw [if_pos hshaMsg] at h
    subst hshaMsg
    obtain ⟨rfl, rfl⟩ := formZ_ok h
    exact ⟨rfl, rfl, rfl⟩
  rw [if_neg hshaMsg] at h
  by_cases hpadblkSha : op = 0x04#8
  · rw [if_pos hpadblkSha] at h
    subst hpadblkSha
    obtain ⟨j, rfl, hj, rfl⟩ := formJ_ok h
    exact ⟨decide_eq_true hj, rfl, rfl⟩
  rw [if_neg hpadblkSha] at h
  by_cases hmd5Init : op = 0x11#8
  · rw [if_pos hmd5Init] at h
    subst hmd5Init
    obtain ⟨rfl, rfl⟩ := formZ_ok h
    exact ⟨rfl, rfl, rfl⟩
  rw [if_neg hmd5Init] at h
  by_cases hmd5Block : op = 0x12#8
  · rw [if_pos hmd5Block] at h
    subst hmd5Block
    obtain ⟨rfl, rfl⟩ := formZ_ok h
    exact ⟨rfl, rfl, rfl⟩
  rw [if_neg hmd5Block] at h
  by_cases hmd5Msg : op = 0x13#8
  · rw [if_pos hmd5Msg] at h
    subst hmd5Msg
    obtain ⟨rfl, rfl⟩ := formZ_ok h
    exact ⟨rfl, rfl, rfl⟩
  rw [if_neg hmd5Msg] at h
  by_cases hpadblkMd5 : op = 0x14#8
  · rw [if_pos hpadblkMd5] at h
    subst hpadblkMd5
    obtain ⟨j, rfl, hj, rfl⟩ := formJ_ok h
    exact ⟨decide_eq_true hj, rfl, rfl⟩
  rw [if_neg hpadblkMd5] at h
  by_cases hdjbInit : op = 0x21#8
  · rw [if_pos hdjbInit] at h
    subst hdjbInit
    obtain ⟨rfl, rfl⟩ := formZ_ok h
    exact ⟨rfl, rfl, rfl⟩
  rw [if_neg hdjbInit] at h
  by_cases hdjbByte : op = 0x22#8
  · rw [if_pos hdjbByte] at h
    subst hdjbByte
    obtain ⟨b, rfl, rfl⟩ := formB_ok h
    exact ⟨rfl, rfl, rfl⟩
  rw [if_neg hdjbByte] at h
  by_cases hdjbMsg : op = 0x23#8
  · rw [if_pos hdjbMsg] at h
    subst hdjbMsg
    obtain ⟨rfl, rfl⟩ := formZ_ok h
    exact ⟨rfl, rfl, rfl⟩
  rw [if_neg hdjbMsg] at h
  cases h

end Sys2Proof
end

