-- ==== Sys2Proof/Laws/Engines.lean ====
section
/-! SUPPORT. The padder, the block list of a padded message, DJB2's arithmetic, and sequences of commands. -/

namespace Sys2Proof.Machine

/-! The padder (41_padder.md). -/

@[simp] theorem lengthSuffix_length (e : Endian) (n : Nat) : (lengthSuffix e n).length = 8 := by
  cases e <;> rfl

@[simp] theorem padBlock_length (e : Endian) (n j : Nat) (seg : List Byte) : (padBlock e n j seg).length = 64 := by
  simp [padBlock]

/-- Byte t of a padding block (R144). -/
theorem padBlock_getElem? (e : Endian) (n j : Nat) (seg : List Byte) {t : Nat} (ht : t < 64) :
    (padBlock e n j seg)[t]? = some (if 64 * j + t < n then seg.getD t 0#8 else padByte e n (64 * j + t)) := by
  simp only [padBlock, List.getElem?_map, List.getElem?_range, ht, Option.map_some]

/-- The blocks of a padded message are its 64-byte slices (R71). -/
theorem blocksOf_eq_map (n : Nat) (p : List Byte) :
    blocksOf n p = (List.range n).map fun j => (p.drop (64 * j)).take 64 := by
  induction n generalizing p with
  | zero => rfl
  | succ n ih =>
    rw [blocksOf, ih, List.range_succ_eq_map]
    simp only [List.map_cons, List.map_map, Nat.mul_zero, List.drop_zero, List.cons.injEq, true_and]
    apply List.map_congr_left
    intro j _
    simp [Function.comp, Nat.mul_add, Nat.add_comm]

/-! DJB2 (44_djb2.md). -/

theorem djbReduce_toNat (c : Config) (x : DWord) : (djbReduce c x).toNat = x.toNat % 2 ^ djbBits c := by
  cases h : c.djbWidth
  · simp [djbReduce, djbBits, h]
    omega
  · simp only [djbReduce, djbBits, h]
    exact (Nat.mod_eq_of_lt x.isLt).symm

/-- A reduced value is a DJB_W-bit value. -/
theorem djbReduce_lt (c : Config) (x : DWord) : (djbReduce c x).toNat < 2 ^ djbBits c := by
  rw [djbReduce_toNat]
  exact Nat.mod_lt _ (Nat.two_pow_pos _)

/-- One step answers a DJB_W-bit value. -/
theorem djbStep_lt (c : Config) (h : DWord) (b : Byte) : (djbStep c h b).toNat < 2 ^ djbBits c := djbReduce_lt c _

theorem djbSeed_lt (c : Config) : djbSeed.toNat < 2 ^ djbBits c := by
  cases h : c.djbWidth <;> simp [djbBits, h, djbSeed]

/-- The fold answers a DJB_W-bit value. -/
theorem djb2_lt (c : Config) (m : List Byte) : (djb2 c m).toNat < 2 ^ djbBits c := by
  unfold djb2
  generalize hs : djbSeed = h
  have hh : h.toNat < 2 ^ djbBits c := hs ▸ djbSeed_lt c
  clear hs
  induction m generalizing h with
  | nil => exact hh
  | cons b m ih => exact ih _ (djbStep_lt c h b)

/-! Sequences of commands. -/

theorem runCommands_append (xs ys : List Instr) {s t : State} (h : runCommands xs s = .next t) :
    runCommands (xs ++ ys) s = runCommands ys t := by
  induction xs generalizing s with
  | nil =>
    cases h
    rfl
  | cons i xs ih =>
    simp only [List.cons_append, runCommands] at h ⊢
    cases hx : exec i s with
    | next u =>
      rw [hx] at h
      exact ih h
    | fault r =>
      rw [hx] at h
      cases h
    | refused r =>
      rw [hx] at h
      cases h

end Sys2Proof.Machine
end

