-- ==== Sys2Proof/Laws/HostPort.lean ====
section
/-! SUPPORT. The host's accesses: one lemma per shared operation, everything it can do (20_memory.md rules R52-R61, R70;
70_reset_and_hazards.md rules R294-R296). -/

namespace Sys2Proof.Machine

theorem busy_iff (s : State) : s.busy = true ↔ s.pend ≠ none := by
  unfold State.busy
  cases s.pend <;> simp

theorem busy_eq_false (s : State) : s.busy = false ↔ s.pend = none := by
  unfold State.busy
  cases s.pend <;> simp

theorem regAccessOk_iff (bits : Nat) (off : BitVec 12) : regAccessOk bits off = true ↔ bits = 32 ∧ off.toNat % 4 = 0 := by
  simp [regAccessOk]

theorem regAccessOk_eq_false (bits : Nat) (off : BitVec 12) :
    regAccessOk bits off = false ↔ bits ≠ 32 ∨ off.toNat % 4 ≠ 0 := by
  rw [← Bool.not_eq_true, regAccessOk_iff]
  omega

theorem msgAccessOk_iff (s : State) (bits a : Nat) : msgAccessOk s bits a = true ↔
    bits = 8 ∧ a < s.cfg.msgCap ∨ bits = 32 ∧ a % 4 = 0 ∧ a + 3 < s.cfg.msgCap := by
  simp [msgAccessOk, and_assoc]

theorem msgAccessOk_eq_false (s : State) (bits a : Nat) : msgAccessOk s bits a = false ↔
    ¬ (bits = 8 ∧ a < s.cfg.msgCap ∨ bits = 32 ∧ a % 4 = 0 ∧ a + 3 < s.cfg.msgCap) := by
  rw [← Bool.not_eq_true, msgAccessOk_iff]

/-- A read that gives a value returns it; one that gives none faults UninitRead (R36). -/
theorem returnsOrFaults_cases (s : State) (v : Option BusValue) :
    (∃ x, v = some x ∧ s.returnsOrFaults v = s.returns x) ∨
      (v = none ∧ s.returnsOrFaults v = s.accessFault .uninitRead) := by
  cases v with
  | some x => exact .inl ⟨x, rfl, rfl⟩
  | none => exact .inr ⟨rfl, rfl⟩

/-- A register read returns a value, returns `any`, or faults (R52, R59, R70). -/
theorem regRead_cases (s : State) (bits : Nat) (off : BitVec 12) :
    (∃ v, regRead s bits off = s.returns v) ∨ (s.pend ≠ none ∧ ∃ v, regRead s bits off = s.busyRead v) ∨
      regRead s bits off = s.accessFault .uninitRead ∨
      (regAccessOk bits off = false ∧ regRead s bits off = s.accessFault (.hostProtocol .regAccess)) := by
  unfold regRead
  by_cases h : regAccessOk bits off = true
  · rw [if_pos h]
    split
    · exact .inl ⟨_, rfl⟩
    · exact .inl ⟨_, rfl⟩
    · by_cases hb : s.busy = true
      · rw [if_pos hb]
        exact .inr (.inl ⟨(busy_iff s).1 hb, _, rfl⟩)
      · rw [if_neg hb]
        rename_i r _ _
        obtain ⟨x, -, hx⟩ | ⟨-, hx⟩ := returnsOrFaults_cases s ((s.regValue r).map .word) <;> rw [hx]
        · exact .inl ⟨x, rfl⟩
        · exact .inr (.inr (.inl rfl))
  · rw [if_neg h]
    exact .inr (.inr (.inr ⟨by simpa using h, rfl⟩))

/-- A message read returns a value or faults (R54, R55). -/
theorem msgRead_cases (s : State) (bits a : Nat) :
    (∃ v, msgRead s bits a = s.returns v) ∨ msgRead s bits a = s.accessFault .uninitRead ∨
      (msgAccessOk s bits a = false ∧ msgRead s bits a = s.accessFault (.hostProtocol .msgAccess)) := by
  unfold msgRead
  by_cases h : msgAccessOk s bits a = true
  · rw [if_pos h]
    split
    · obtain ⟨x, -, hx⟩ | ⟨-, hx⟩ := returnsOrFaults_cases s ((s.msg.read a).map .byte) <;> rw [hx]
      · exact .inl ⟨x, rfl⟩
      · exact .inr (.inl rfl)
    · obtain ⟨x, -, hx⟩ | ⟨-, hx⟩ := returnsOrFaults_cases s ((s.msg.readWord a).map .word) <;> rw [hx]
      · exact .inl ⟨x, rfl⟩
      · exact .inr (.inl rfl)
  · rw [if_neg h]
    exact .inr (.inr ⟨by simpa using h, rfl⟩)

/-- A write to an input happens while idle and faults while a command is pending (R295). -/
theorem writeInput_idle {s : State} (w : State) (h : s.pend = none) : writeInput s w = w.returnsNothing := by
  unfold writeInput
  rw [if_neg (by simp [(busy_eq_false s).2 h])]

theorem writeInput_busy {s : State} (w : State) (h : s.pend ≠ none) :
    writeInput s w = s.accessFault (.hostProtocol .writeWhileBusy) := by
  unfold writeInput
  rw [if_pos ((busy_iff s).2 h)]

/-- Issue while idle (R240). -/
theorem writeCmd_idle {s : State} (c : Word) (h : s.pend = none) :
    writeCmd s c = { s with pend := some c }.returnsNothing := by
  unfold writeCmd
  rw [if_neg (by simp [(busy_eq_false s).2 h])]

/-- Command overlap (R294). -/
theorem writeCmd_busy {s : State} (c : Word) (h : s.pend ≠ none) :
    writeCmd s c = s.accessFault (.hostProtocol .cmdWhileBusy) := by
  unfold writeCmd
  rw [if_pos ((busy_iff s).2 h)]

/-- A register write is ignored, faults, issues a command, or stores to LEN or BLOCK (R52, R59, R60). -/
theorem regWrite_cases (s : State) (bits : Nat) (off : BitVec 12) (v : Word) :
    (regAccessOk bits off = false ∧ regWrite s bits off v = s.accessFault (.hostProtocol .regAccess)) ∨
      (bits = 32 ∧ off.toNat % 4 = 0 ∧
        (regWrite s bits off v = s.returnsNothing ∨
          (regAt off = some .cmd ∧ regWrite s bits off v = writeCmd s v) ∨
          (regAt off = some .lenLo ∧ regWrite s bits off v = writeInput s (s.setLenLo v)) ∨
          (regAt off = some .lenHi ∧ regWrite s bits off v = writeInput s (s.setLenHi v)) ∨
          ∃ k, regAt off = some (.blockW k) ∧
            regWrite s bits off v = writeInput s { s with block := s.block.writeWord (4 * k.val) v })) := by
  unfold regWrite
  by_cases h : regAccessOk bits off = true
  · rw [if_pos h]
    obtain ⟨hb, ho⟩ := (regAccessOk_iff bits off).1 h
    refine .inr ⟨hb, ho, ?_⟩
    split <;> simp_all
  · rw [if_neg h]
    exact .inl ⟨by simpa using h, rfl⟩

/-- A message write faults, or is a write to an input (R54, R55, R295). -/
theorem msgWrite_cases (s : State) (bits a : Nat) (v : Word) :
    (msgAccessOk s bits a = false ∧ msgWrite s bits a v = s.accessFault (.hostProtocol .msgAccess)) ∨
      (msgAccessOk s bits a = true ∧ msgWrite s bits a v = writeInput s
        { s with msg := if bits = 8 then s.msg.write a (v.setWidth 8) else s.msg.writeWord a v }) := by
  unfold msgWrite
  by_cases h : msgAccessOk s bits a = true
  · rw [if_pos h]
    exact .inr ⟨h, rfl⟩
  · rw [if_neg h]
    exact .inl ⟨by simpa using h, rfl⟩

/-! The REG map (R60). -/

/-- Where an offset that is a multiple of 4 selects a register. -/
theorem regAt_of_toNat {off : BitVec 12} {n : Nat} (h : off.toNat = n) : regAt off = regAtIndex (n / 4) := by
  rw [regAt, h]

theorem regAtIndex_sha {k : Nat} (h : k < 8) : regAtIndex (8 + k) = some (.shaH ⟨k, h⟩) := by
  have : ∀ j : Fin 8, regAtIndex (8 + j.val) = some (.shaH j) := by decide
  exact this ⟨k, h⟩

theorem regAtIndex_md5 {k : Nat} (h : k < 4) : regAtIndex (16 + k) = some (.md5 ⟨k, h⟩) := by
  have : ∀ j : Fin 4, regAtIndex (16 + j.val) = some (.md5 j) := by decide
  exact this ⟨k, h⟩

theorem regAtIndex_block {k : Nat} (h : k < 16) : regAtIndex (32 + k) = some (.blockW ⟨k, h⟩) := by
  have : ∀ j : Fin 16, regAtIndex (32 + j.val) = some (.blockW j) := by decide
  exact this ⟨k, h⟩

theorem regAtIndex_unmapped {i : Nat} (h : 20 ≤ i ∧ i < 32 ∨ 48 ≤ i) : regAtIndex i = none := by
  simp (disch := omega) only [regAtIndex, if_neg, dif_neg]

/-- A register is selected at its own offset alone. -/
theorem regAtIndex_offset {i : Nat} {r : Reg} (h : regAtIndex i = some r) : r.offset = 4 * i := by
  have hi : i < 48 := by
    by_contra hc
    rw [regAtIndex_unmapped (.inr (by omega))] at h
    cases h
  have key : ∀ j : Fin 48, (regAtIndex j.val).all (fun r => decide (r.offset = 4 * j.val)) = true := by decide
  have hj := key ⟨i, hi⟩
  simp only [h] at hj
  simpa using hj

/-- A register is selected at its own offset alone (R60). -/
theorem regAt_offset {off : BitVec 12} {r : Reg} (h : regAt off = some r) (ha : off.toNat % 4 = 0) :
    off.toNat = r.offset := by
  have := regAtIndex_offset h
  omega

/-- A register read at word index `n` while idle. -/
theorem regRead_at {s : State} (hp : s.pend = none) {off : BitVec 12} {n : Nat} (h : off.toNat = 4 * n) :
    regRead s 32 off =
      match regAtIndex n with
      | none => s.returns (.word 0)
      | some r => s.returnsOrFaults ((s.regValue r).map .word) := by
  have hb := (busy_eq_false s).2 hp
  unfold regRead
  rw [if_pos ((regAccessOk_iff _ _).2 ⟨rfl, by omega⟩), regAt_of_toNat h, show 4 * n / 4 = n by omega]
  cases regAtIndex n with
  | none => rfl
  | some r => cases r <;> simp [hb, State.regValue, State.returnsOrFaults]

/-- A register write at word index `n`. -/
theorem regWrite_at (s : State) {off : BitVec 12} (v : Word) {n : Nat} (h : off.toNat = 4 * n) :
    regWrite s 32 off v =
      match regAtIndex n with
      | some .cmd => writeCmd s v
      | some .lenLo => writeInput s (s.setLenLo v)
      | some .lenHi => writeInput s (s.setLenHi v)
      | some (.blockW k) => writeInput s { s with block := s.block.writeWord (4 * k.val) v }
      | _ => s.returnsNothing := by
  unfold regWrite
  rw [if_pos ((regAccessOk_iff _ _).2 ⟨rfl, by omega⟩), regAt_of_toNat h, show 4 * n / 4 = n by omega]
  cases regAtIndex n with
  | none => rfl
  | some r => cases r <;> rfl

/-- The registers and the model's own agenda, which no host access changes (R26-R28, R61). -/
theorem hostAccess_frame (s : State) (x : HostAccess) :
    (hostAccess s x).cfg = s.cfg ∧ (hostAccess s x).err = s.err ∧ (hostAccess s x).acc = s.acc ∧
      (hostAccess s x).h = s.h ∧ (hostAccess s x).s = s.s ∧ (hostAccess s x).agenda = s.agenda := by
  have wi : ∀ w : State, w.cfg = s.cfg → w.err = s.err → w.acc = s.acc → w.h = s.h → w.s = s.s → w.agenda = s.agenda →
      (writeInput s w).cfg = s.cfg ∧ (writeInput s w).err = s.err ∧ (writeInput s w).acc = s.acc ∧
        (writeInput s w).h = s.h ∧ (writeInput s w).s = s.s ∧ (writeInput s w).agenda = s.agenda := by
    intro w h1 h2 h3 h4 h5 h6
    by_cases hp : s.pend = none
    · rw [writeInput_idle w hp]
      exact ⟨h1, h2, h3, h4, h5, h6⟩
    · rw [writeInput_busy w hp]
      exact ⟨rfl, rfl, rfl, rfl, rfl, rfl⟩
  cases x with
  | regRead bits off =>
    simp only [hostAccess]
    obtain ⟨v, h⟩ | ⟨-, v, h⟩ | h | ⟨-, h⟩ := regRead_cases s bits off <;> rw [h]
    · exact ⟨rfl, rfl, rfl, rfl, rfl, rfl⟩
    · cases v <;> exact ⟨rfl, rfl, rfl, rfl, rfl, rfl⟩
    · exact ⟨rfl, rfl, rfl, rfl, rfl, rfl⟩
    · exact ⟨rfl, rfl, rfl, rfl, rfl, rfl⟩
  | msgRead bits a =>
    simp only [hostAccess]
    obtain ⟨v, h⟩ | h | ⟨-, h⟩ := msgRead_cases s bits a <;> rw [h] <;> exact ⟨rfl, rfl, rfl, rfl, rfl, rfl⟩
  | msgWrite bits a v =>
    simp only [hostAccess]
    obtain ⟨-, h⟩ | ⟨-, h⟩ := msgWrite_cases s bits a v <;> rw [h]
    · exact ⟨rfl, rfl, rfl, rfl, rfl, rfl⟩
    · exact wi _ rfl rfl rfl rfl rfl rfl
  | regWrite bits off v =>
    simp only [hostAccess]
    obtain ⟨-, h⟩ | ⟨-, -, h | ⟨-, h⟩ | ⟨-, h⟩ | ⟨-, h⟩ | ⟨k, -, h⟩⟩ := regWrite_cases s bits off v <;> rw [h]
    · exact ⟨rfl, rfl, rfl, rfl, rfl, rfl⟩
    · exact ⟨rfl, rfl, rfl, rfl, rfl, rfl⟩
    · by_cases hp : s.pend = none
      · rw [writeCmd_idle v hp]
        exact ⟨rfl, rfl, rfl, rfl, rfl, rfl⟩
      · rw [writeCmd_busy v hp]
        exact ⟨rfl, rfl, rfl, rfl, rfl, rfl⟩
    · exact wi _ rfl rfl rfl rfl rfl rfl
    · exact wi _ rfl rfl rfl rfl rfl rfl
    · exact wi _ rfl rfl rfl rfl rfl rfl

end Sys2Proof.Machine
end

