-- ==== Sys2Proof/Laws/PerInstr.lean ====
section
/-! SUPPORT. Statements for all commands, proved per constructor. Family EncodesInRow: a command's word selects its own row
of the opcode map (30_encoding.md rule R84). -/

namespace Sys2Proof.Laws.EncodesInRow

/-- The command's word satisfies `(c & mask) = match` of its row (R84). -/
def Statement (i : Instr) : Prop := i.row.selects (encode i) = true

theorem nop : Statement .nop := by unfold Statement; decide

theorem shaInit : Statement .shaInit := by unfold Statement; decide

theorem shaBlock : Statement .shaBlock := by unfold Statement; decide

theorem shaMsg : Statement .shaMsg := by unfold Statement; decide

theorem padblkSha (j : DWord) : Statement (.padblkSha j) := by
  simp [Statement, OpcodeRow.selects, Instr.row, encode, and_opMask, Instr.op]

theorem md5Init : Statement .md5Init := by unfold Statement; decide

theorem md5Block : Statement .md5Block := by unfold Statement; decide

theorem md5Msg : Statement .md5Msg := by unfold Statement; decide

theorem padblkMd5 (j : DWord) : Statement (.padblkMd5 j) := by
  simp [Statement, OpcodeRow.selects, Instr.row, encode, and_opMask, Instr.op]

theorem djbInit : Statement .djbInit := by unfold Statement; decide

theorem djbByte (b : Byte) : Statement (.djbByte b) := by
  have : ∀ b : Byte, Statement (.djbByte b) := by unfold Statement; decide
  exact this b

theorem djbMsg : Statement .djbMsg := by unfold Statement; decide

end Sys2Proof.Laws.EncodesInRow
end

