-- ==== Sys2Proof/Tests/Slice0.lean ====
section
/-! SUPPORT. Tests: every expected value is the spec's (95_test_vectors.md, by its vector's name, or a word written out from
30_encoding.md). The last part holds a witness for each statement that has hypotheses. -/

namespace Sys2Proof.Machine.Tests

open Sys2Proof Sys2Proof.Machine

set_option Elab.async false

/-! Helpers. -/

/-- The bytes of "abc" (00_scope.md rule R11). -/
def abc : List Byte := [0x61#8, 0x62#8, 0x63#8]

/-- After reset, the message `m` loaded. -/
def withMessage (m : List Byte) : State :=
  { State.reset with len := BitVec.ofNat 64 m.length, msg := Memory.writeBytes [] 0 m }

/-- `s` with BLOCK holding `blk`. -/
def withBlock (blk : List Byte) (s : State) : State := { s with block := Memory.writeBytes [] 0 blk }

/-- "abc" loaded and its first padded block in BLOCK. -/
def abcBlock (e : Endian) : State := withBlock (pad e abc) (withMessage abc)

/-- After reset, MSG_CAP = 64 and LEN = n, MSG[0..63] = "a". -/
def smallCap (n : Nat) : State :=
  { State.resetWith { Config.standard with msgCap := 64 } with
    len := BitVec.ofNat 64 n, msg := Memory.writeBytes [] 0 (List.replicate 64 0x61#8) }

/-- After reset, SHA_MSG pending. -/
def pendingShaMsg : State := { withMessage abc with pend := some 0x00000003#32 }

/-- The next state, if there is one, meets `p`. -/
def answers (o : Host.Outcome State Fault Refusal) (p : State → Bool) : Bool :=
  match o with
  | .next t => p t
  | .fault _ => false
  | .refused _ => false

/-- The state after completing the word `w` meets `p`: one step. -/
def completing (w : Nat) (s : State) (p : State → Bool) : Bool := answers (step (s.withFetchWord 32 w)) p

/-- The state after the host access `x` meets `p`: one step. -/
def accessing (x : HostAccess) (s : State) (p : State → Bool) : Bool :=
  answers (step { s with agenda := [.host x] }) p

/-! WellFormed and Decode. -/

theorem test_wellFormed_refuses_a_25_bit_index :
    (Instr.padblkSha 0x1000000#64).wellFormed = false ∧ (Instr.padblkMd5 0x1000000#64).wellFormed = false := by decide

theorem test_wellFormed_admits_the_last_index :
    (Instr.padblkSha 0xFFFFFF#64).wellFormed = true ∧ (Instr.padblkMd5 0xFFFFFF#64).wellFormed = true := by decide

/-- V-E1, V-E3, and the rows of R84. -/
theorem test_decode_control_and_sha :
    decode 0x00000000#32 = .ok .nop ∧ decode 0x00000001#32 = .ok .shaInit ∧ decode 0x00000002#32 = .ok .shaBlock ∧
      decode 0x00000003#32 = .ok .shaMsg := by decide

theorem test_decode_md5 :
    decode 0x00000011#32 = .ok .md5Init ∧ decode 0x00000012#32 = .ok .md5Block ∧ decode 0x00000013#32 = .ok .md5Msg := by
  decide

/-- V-E9, V-E13. -/
theorem test_decode_djb :
    decode 0x00000021#32 = .ok .djbInit ∧ decode 0x0000FF22#32 = .ok (.djbByte 0xFF#8) ∧
      decode 0x00000022#32 = .ok (.djbByte 0x00#8) ∧ decode 0x00000023#32 = .ok .djbMsg := by decide

/-- V-E6, V-E7, V-E12: j = ARG, zero-extended. -/
theorem test_decode_padblk :
    decode 0x00000004#32 = .ok (.padblkSha 0) ∧ decode 0xFFFFFF04#32 = .ok (.padblkSha 16777215) ∧
      decode 0x00000014#32 = .ok (.padblkMd5 0) ∧ decode 0x12345614#32 = .ok (.padblkMd5 0x123456) := by decide

/-- DJB_BYTE 0x61, bit by bit: ARG[23:8] = 0, the byte 01100001, OP 00100010. -/
theorem test_decode_djbByte_bits : decode 0b00000000000000000110000100100010#32 = .ok (.djbByte 0x61#8) := by decide

/-- V-E2, V-E4, V-E5, V-E10, V-E11. -/
theorem test_decode_reserved_arg :
    [0x00000100#32, 0x00000101#32, 0x80000003#32, 0x00016122#32, 0x00FF0022#32].all
      (fun c => decide (decode c = .error .reservedArg)) = true := by decide

/-- V-E8, and the ends of the ranges of R86. -/
theorem test_decode_unassigned :
    [0x05#32, 0x10#32, 0x15#32, 0x20#32, 0x24#32, 0xFF#32].all
      (fun c => decide (decode c = .error .unassignedOpcode)) = true := by decide

/-- R89: "Its encoding is `OP | (ARG << 8)`". -/
theorem test_encode_words :
    encode .nop = 0x00000000#32 ∧ encode .shaInit = 0x00000001#32 ∧ encode .shaBlock = 0x00000002#32 ∧
      encode .shaMsg = 0x00000003#32 ∧ encode (.padblkSha 2) = 0x00000204#32 ∧ encode .md5Init = 0x00000011#32 ∧
      encode .md5Block = 0x00000012#32 ∧ encode .md5Msg = 0x00000013#32 ∧ encode (.padblkMd5 1) = 0x00000114#32 ∧
      encode .djbInit = 0x00000021#32 ∧ encode (.djbByte 0x62#8) = 0x00006222#32 ∧ encode .djbMsg = 0x00000023#32 := by
  decide

theorem test_decodeTableWord :
    decodeTableWord 32 0x00000003 = some .shaMsg ∧ decodeTableWord 8 0x22 = some (.djbByte 0) ∧
      decodeTableWord 32 0x80000003 = none ∧ decodeTableWord 40 0x03 = none := by decide

theorem test_withFetchWord_runs_next :
    completing 0x00000021 { State.reset with acc := 0, agenda := [.reset] }
      (fun t => decide (t.acc = 5381 ∧ t.agenda = [.reset] ∧ t.pend = none)) = true := by decide +kernel

/-! Word primitives (2.1). -/

/-- V-A1 to V-A12. -/
theorem test_shifts_and_rotations :
    0xFFFFFFFF#32 + 0x00000001#32 = 0 ∧ 0x80000000#32 + 0x80000000#32 = 0 ∧ shr 0xFFFFFFFF#32 3 = 0x1FFFFFFF#32 ∧
      shr 0xFFFFFFFF#32 10 = 0x003FFFFF#32 ∧ rotr 0x00000001#32 1 = 0x80000000#32 ∧
      rotr 0x12345678#32 8 = 0x78123456#32 ∧ rotr 0x12345678#32 31 = 0x2468ACF0#32 ∧
      rotr 0x12345678#32 0 = 0x12345678#32 ∧ rotl 0x12345678#32 4 = 0x23456781#32 ∧
      rotl 0x80000000#32 1 = 0x00000001#32 ∧ rotl 0x12345678#32 31 = 0x091A2B3C#32 ∧
      rotl 0x12345678#32 0 = 0x12345678#32 := by decide

/-- V-A13 to V-A19. -/
theorem test_sha_functions :
    ch 0x510E527F#32 0x9B05688C#32 0x1F83D9AB#32 = 0x1F85C98C#32 ∧
      ch 0xFFFFFFFF#32 0x12345678#32 0x9ABCDEF0#32 = 0x12345678#32 ∧
      ch 0x00000000#32 0x12345678#32 0x9ABCDEF0#32 = 0x9ABCDEF0#32 ∧
      maj 0x6A09E667#32 0xBB67AE85#32 0x3C6EF372#32 = 0x3A6FE667#32 ∧ bigSigma0 0x6A09E667#32 = 0xCE20B47E#32 ∧
      bigSigma1 0x510E527F#32 = 0x3587272B#32 ∧ bigSigma0 0 = 0 ∧ bigSigma0 0xFFFFFFFF#32 = 0xFFFFFFFF#32 ∧
      bigSigma1 0xFFFFFFFF#32 = 0xFFFFFFFF#32 := by decide

/-- V-A20 to V-A24. -/
theorem test_small_sigmas :
    smallSigma0 0x00000001#32 = 0x02004000#32 ∧ smallSigma0 0x80000000#32 = 0x11002000#32 ∧
      smallSigma1 0x00000001#32 = 0x0000A000#32 ∧ smallSigma1 0x00000018#32 = 0x000F0000#32 ∧
      smallSigma1 0x80000000#32 = 0x00205000#32 := by decide

/-- V-A25 to V-A28. -/
theorem test_md5_functions :
    md5F 0xEFCDAB89#32 0x98BADCFE#32 0x10325476#32 = 0x98BADCFE#32 ∧
      md5G 0xEFCDAB89#32 0x98BADCFE#32 0x10325476#32 = 0x88888888#32 ∧
      md5H 0xEFCDAB89#32 0x98BADCFE#32 0x10325476#32 = 0x67452301#32 ∧
      md5I 0xEFCDAB89#32 0x98BADCFE#32 0x10325476#32 = 0x77777777#32 := by decide

/-- V-A29 to V-A32. -/
theorem test_byte_orders :
    be32 0x61#8 0x62#8 0x63#8 0x80#8 = 0x61626380#32 ∧ le32 0x61#8 0x62#8 0x63#8 0x80#8 = 0x80636261#32 ∧
      beBytes 0x18 8 = [0, 0, 0, 0, 0, 0, 0, 0x18#8] ∧ leBytes 0x18 8 = [0x18#8, 0, 0, 0, 0, 0, 0, 0] := by decide

/-- V-A33, V-A34. -/
theorem test_rendering :
    hexLower [0x00#8, 0x0F#8, 0xA0#8] = ['0', '0', '0', 'f', 'a', '0'] ∧ decimal 0 = ['0'] ∧
      decimal 5381 = ['5', '3', '8', '1'] := by decide +kernel

/-! The padder (2.2). -/

/-- V-P1 to V-P9. -/
theorem test_padding_lengths :
    [0, 1, 55, 56, 63, 64, 119, 120, 128].map (fun n => (zeroFill n, nblk n)) =
      [(55, 1), (54, 1), (0, 1), (63, 2), (56, 2), (55, 2), (0, 2), (63, 3), (55, 3)] := by decide

/-- V-P10, V-P11. -/
theorem test_pad_abc :
    pad .be abc = abc ++ [0x80#8] ++ List.replicate 52 0#8 ++ [0, 0, 0, 0, 0, 0, 0, 0x18#8] ∧
      pad .le abc = abc ++ [0x80#8] ++ List.replicate 52 0#8 ++ [0x18#8, 0, 0, 0, 0, 0, 0, 0] := by decide +kernel

/-- V-P12, V-P13. -/
theorem test_pad_at_the_block_edge :
    (pad .be (List.replicate 56 0x61#8)).drop 56 =
        [0x80#8] ++ List.replicate 63 0#8 ++ [0, 0, 0, 0, 0, 0, 0x01#8, 0xC0#8] ∧
      (pad .le (List.replicate 55 0x61#8)).drop 55 = [0x80#8, 0xB8#8, 0x01#8, 0, 0, 0, 0, 0, 0] := by decide +kernel

/-- V-P14, V-P15: the positional form gives the padding-only blocks. -/
theorem test_padding_only_blocks :
    padBlock .be 64 1 [] = [0x80#8] ++ List.replicate 55 0#8 ++ [0, 0, 0, 0, 0, 0, 0x02#8, 0x00#8] ∧
      pad .be [] = [0x80#8] ++ List.replicate 63 0#8 ∧ pad .le [] = pad .be [] := by decide +kernel

/-! The engines (2.3 to 2.5, W1 to W5). -/

/-- V-S1 to V-S3. -/
theorem test_schedule_of_abc :
    [0, 15, 16, 17, 18, 19, 63].map (fun t => (schedule (pad .be abc)).getD t 0) =
      [0x61626380#32, 0x00000018#32, 0x61626380#32, 0x000F0000#32, 0x7DA86405#32, 0x600003C6#32, 0x12B1EDEB#32] := by
  decide +kernel

/-- V-S5, V-S6. -/
theorem test_sha_rounds_of_abc :
    shaRounds (schedule (pad .be abc)) ivSha 1 =
        ⟨0x5D6AEBCD#32, 0x6A09E667#32, 0xBB67AE85#32, 0x3C6EF372#32, 0xFA2A4622#32, 0x510E527F#32, 0x9B05688C#32,
          0x1F83D9AB#32⟩ ∧
      shaRounds (schedule (pad .be abc)) ivSha 2 =
        ⟨0x5A6AD9AD#32, 0x5D6AEBCD#32, 0x6A09E667#32, 0xBB67AE85#32, 0x78CE7989#32, 0xFA2A4622#32, 0x510E527F#32,
          0x9B05688C#32⟩ := by decide +kernel

/-- V-S13: 56 × "a", two blocks. -/
theorem test_sha_of_two_blocks :
    sha256State (List.replicate 56 0x61#8) =
      ⟨0xB35439A4#32, 0xAC6F0948#32, 0xB6D6F9E3#32, 0xC6AF0F5F#32, 0x590CE20F#32, 0x1BDE7090#32, 0xEF797068#32,
        0x6EC6738A#32⟩ := by decide +kernel

/-- V-S11: the byte 0xFF. -/
theorem test_sha_of_a_high_byte :
    sha256State [0xFF#8] =
      ⟨0xA8100AE6#32, 0xAA1940D0#32, 0xB663BB31#32, 0xCD466142#32, 0xEBBDBD51#32, 0x87131B92#32, 0xD9381898#32,
        0x7832EB89#32⟩ := by decide +kernel

/-- V-M2, V-M3, V-M4, V-M5: the ends of the first round and of each range of rounds. -/
theorem test_md5_rounds_of_abc :
    let m := wordsLE (pad .le abc)
    md5Rounds m ivMd5 1 = ⟨0x10325476#32, 0xD6D117B4#32, 0xEFCDAB89#32, 0x98BADCFE#32⟩ ∧
      md5Rounds m ivMd5 16 = ⟨0xDDA9B9A6#32, 0x72AFF2E0#32, 0xE396856B#32, 0xA1051895#32⟩ ∧
      md5Rounds m ivMd5 32 = ⟨0x790A77FB#32, 0x726342D3#32, 0xA62884AA#32, 0x9F47E4F8#32⟩ ∧
      md5Rounds m ivMd5 48 = ⟨0x7F2E507B#32, 0x7BEB9700#32, 0x8FAE6399#32, 0x99D9679D#32⟩ := by decide +kernel

/-- V-M15: 56 × "a", two blocks, digest 3b0c8ac703f828b04c6c197006d17218. -/
theorem test_md5_of_two_blocks :
    md5DigestBytes (md5State (List.replicate 56 0x61#8)) =
      [0x3B#8, 0x0C#8, 0x8A#8, 0xC7#8, 0x03#8, 0xF8#8, 0x28#8, 0xB0#8, 0x4C#8, 0x6C#8, 0x19#8, 0x70#8, 0x06#8, 0xD1#8,
        0x72#8, 0x18#8] := by decide +kernel

/-- V-M18, V-M19. -/
theorem test_rom_entries :
    [0, 15, 16, 31, 32, 47, 48, 63].map (fun i => (shiftAmount i, kMd5 i)) =
        [(7, 0xD76AA478#32), (22, 0x49B40821#32), (5, 0xF61E2562#32), (20, 0x8D2A4C8A#32), (4, 0xFFFA3942#32),
          (23, 0xC4AC5665#32), (6, 0xF4292244#32), (21, 0xEB86D391#32)] ∧
      [0, 15, 16, 31, 32, 47, 48, 63].map kSha =
        [0x428A2F98#32, 0xC19BF174#32, 0xE49B69C1#32, 0x14292967#32, 0x27B70A85#32, 0x106AA070#32, 0x19A4C116#32,
          0xC67178F2#32] := by decide

/-- V-D4, V-D5, V-D7 and V-D8: both widths, and where each wraps. -/
theorem test_djb2_widths :
    djb2 Config.standard abc = 193485963 ∧
      djb2 Config.standard [0x68#8, 0x65#8, 0x6C#8, 0x6C#8, 0x6F#8] = 210714636441 ∧
      djb2 { Config.standard with djbWidth := .w32 } [0x68#8, 0x65#8, 0x6C#8, 0x6C#8, 0x6F#8] = 261238937 ∧
      djb2 { Config.standard with djbWidth := .w32 } (List.replicate 7 0x61#8) = 0x17E72AAC ∧
      djb2 Config.standard (List.replicate 11 0x61#8) = 0xC06D71BBB7CB7AF0#64 := by decide +kernel

/-- V-D10 to V-D13, V-D15, V-D16: both widenings. -/
theorem test_djb2_widenings :
    djb2 Config.standard [0xFF#8] = 177828 ∧ djb2 { Config.standard with byteExt := .sext } [0xFF#8] = 177572 ∧
      djb2 Config.standard [0x80#8, 0x61#8] = 5864230 ∧
      djb2 { Config.standard with byteExt := .sext } [0x80#8, 0x61#8] = 5855782 ∧
      djbStep Config.standard 0xFFFFFFFFFFFFFFFF#64 0xFF#8 = 0xDE ∧
      djbStep { Config.standard with djbWidth := .w32 } 0xFFFFFFFF#64 0xFF#8 = 0xDE ∧
      djbStep { Config.standard with byteExt := .sext } 0 0xFF#8 = 0xFFFFFFFFFFFFFFFF#64 ∧
      djbStep ⟨4096, .w32, .sext⟩ 0 0xFF#8 = 0xFFFFFFFF#64 := by decide +kernel

/-! One step of each command. -/

/-- V-X18: NOP clears ERR. -/
theorem test_nop : completing 0x00000000 { State.reset with err := .illegal } (fun t => t.statusWord == 0) = true := by
  decide +kernel

theorem test_shaInit :
    completing 0x00000001 { State.reset with h := ⟨0, 0, 0, 0, 0, 0, 0, 0⟩ }
      (fun t => t.h.a == 0x6A09E667#32 && t.h.h == 0x5BE0CD19#32) = true := by decide +kernel

/-- V-S8. -/
theorem test_shaBlock :
    completing 0x00000002 (abcBlock .be) (fun t => t.h.a == 0xBA7816BF#32 && t.h.h == 0xF20015AD#32) = true := by
  decide +kernel

/-- V-X10. -/
theorem test_shaBlock_unwritten :
    completing 0x00000002 State.reset (fun t => t.fault.has .uninitRead && t.pend == none) = true := by decide +kernel

/-- W2, and what ran before does not matter (W7). -/
theorem test_shaMsg :
    completing 0x00000003 { withMessage abc with h := ⟨1, 2, 3, 4, 5, 6, 7, 8⟩ }
      (fun t => t.h.a == 0xBA7816BF#32 && t.h.e == 0xB00361A3#32 && t.statusWord == 0) = true := by decide +kernel

/-- V-X9. -/
theorem test_shaMsg_unwritten :
    completing 0x00000003 { withMessage [0x61#8] with len := 2 } (fun t => t.fault.has .uninitRead) = true := by
  decide +kernel

/-- V-P16: W15 = 0x18000000 through the little-endian lanes. -/
theorem test_padblkSha :
    completing 0x00000004 (withMessage abc)
      (fun t => t.block.readWord 0 == some 0x80636261#32 && t.block.readWord 60 == some 0x18000000#32) = true := by
  decide +kernel

/-- V-P23: only MSG[0..64) is read. -/
theorem test_padblkSha_reads_its_segment :
    completing 0x00000004 { withMessage (List.replicate 64 0x61#8) with len := 100 }
      (fun t => t.fault == FaultSet.none && t.block.readWord 60 == some 0x61616161#32) = true := by decide +kernel

theorem test_md5Init :
    completing 0x00000011 { State.reset with s := ⟨0, 0, 0, 0⟩ }
      (fun t => t.s == ⟨0x67452301#32, 0xEFCDAB89#32, 0x98BADCFE#32, 0x10325476#32⟩) = true := by decide +kernel

/-- V-M7. -/
theorem test_md5Block :
    completing 0x00000012 (abcBlock .le)
      (fun t => t.s == ⟨0x98500190#32, 0xB04FD23C#32, 0x7D3F96D6#32, 0x727FE128#32⟩) = true := by decide +kernel

/-- V-M9: MD5_BLOCK chains. -/
theorem test_md5Block_chains :
    completing 0x00000012
      { abcBlock .le with s := ⟨0x98500190#32, 0xB04FD23C#32, 0x7D3F96D6#32, 0x727FE128#32⟩ }
      (fun t => t.s == ⟨0xC4A56D91#32, 0x1317CC0F#32, 0x52DF5644#32, 0x72514C72#32⟩) = true := by decide +kernel

/-- W3. -/
theorem test_md5Msg :
    completing 0x00000013 { State.reset with s := ⟨0, 0, 0, 0⟩ }
      (fun t => t.s == ⟨0xD98C1DD4#32, 0x04B2008F#32, 0x980980E9#32, 0x7E42F8EC#32⟩) = true := by decide +kernel

/-- V-P17. -/
theorem test_padblkMd5 :
    completing 0x00000014 (withMessage abc)
      (fun t => t.block.readWord 56 == some 0x00000018#32 && t.block.readWord 60 == some 0) = true := by decide +kernel

/-- V-P20, for MD5. -/
theorem test_padblkMd5_index :
    completing 0x00000114 State.reset (fun t => t.statusWord == 0x00000030#32 && t.block == []) = true := by
  decide +kernel

theorem test_djbInit : completing 0x00000021 { State.reset with acc := 7 } (fun t => t.acc == 5381) = true := by
  decide +kernel

/-- P3 step 8. -/
theorem test_djbByte : completing 0x00006122 State.reset (fun t => t.acc == 177670) = true := by decide +kernel

/-- V-D14: the byte 0x00 is no NOP. -/
theorem test_djbByte_zero : completing 0x00000022 State.reset (fun t => t.acc == 177573) = true := by decide +kernel

/-- V-E13. -/
theorem test_djbMsg :
    completing 0x00000023 { withMessage abc with acc := 99 } (fun t => t.acc == 193485963 && t.statusWord == 0) = true := by
  decide +kernel

/-! Errors, faults and accesses (2.7). -/

/-- V-X1, V-X2: LEN = MSG_CAP is legal, LEN = MSG_CAP + 1 is CAPACITY. -/
theorem test_capacity_edge :
    completing 0x00000003 (smallCap 64) (fun t => t.statusWord == 0 && t.h.a == 0xFFE054FE#32) = true ∧
      completing 0x00000003 (smallCap 65) (fun t => t.statusWord == 0x00000020#32 && t.h == ivSha) = true := by
  decide +kernel

/-- V-X3, V-X4: CAPACITY before INDEX, ILLEGAL before CAPACITY. -/
theorem test_priority :
    completing 0x00000104 (smallCap 65) (fun t => t.statusWord == 0x00000020#32) = true ∧
      completing 0x00000103 (smallCap 65) (fun t => t.statusWord == 0x00000010#32) = true := by decide +kernel

/-- V-P21, V-P22: the last block, and the first index past it. -/
theorem test_index_edge :
    completing 0x00000104 (smallCap 64)
        (fun t => t.statusWord == 0 && t.block.readWord 0 == some 0x80#32 && t.block.readWord 60 == some 0x20000#32) =
        true ∧
      completing 0x00000204 (smallCap 64) (fun t => t.statusWord == 0x00000030#32 && t.block == []) = true := by
  decide +kernel

/-- V-E10: an illegal word leaves ACC. -/
theorem test_illegal : completing 0x00016122 State.reset (fun t => t.statusWord == 0x10#32 && t.acc == 5381) = true := by
  decide +kernel

/-- V-X6, V-X7, V-X8. -/
theorem test_nblk_register :
    [0x0000000100000003#64, 0x0000004000000000#64, 0xFFFFFFFFFFFFFFFF#64].map
      (fun n => State.nblkWord { State.reset with len := n }) = [0x04000001#32, 1, 1] := by decide +kernel

/-- V-X11, V-R8. -/
theorem test_read_of_unwritten_bytes :
    accessing (.regRead 32 0x080#12) State.reset (fun t => t.fault.has .uninitRead) = true ∧
      accessing (.msgRead 8 0) State.reset (fun t => t.fault.has .uninitRead) = true := by decide +kernel

/-- V-X12. -/
theorem test_malformed_register_access :
    accessing (.regRead 32 0x002#12) State.reset (fun t => t.fault.has (.hostProtocol .regAccess)) = true ∧
      accessing (.regWrite 8 0x008#12 1) State.reset
        (fun t => t.fault.has (.hostProtocol .regAccess) && t.len == 0) = true := by decide +kernel

/-- V-X13. -/
theorem test_message_access_forms :
    accessing (.msgWrite 32 2 1) State.reset (fun t => t.fault.has (.hostProtocol .msgAccess) && t.msg == []) = true ∧
      accessing (.msgWrite 8 4096 1) State.reset (fun t => t.fault.has (.hostProtocol .msgAccess)) = true ∧
      accessing (.msgWrite 32 4096 1) State.reset (fun t => t.fault.has (.hostProtocol .msgAccess)) = true ∧
      accessing (.msgWrite 32 4092 1) State.reset (fun t => t.fault == FaultSet.none) = true := by decide +kernel

/-- V-X14: PEND keeps the first word. -/
theorem test_command_overlap :
    accessing (.regWrite 32 0x000#12 0x21#32) pendingShaMsg
      (fun t => t.fault.has (.hostProtocol .cmdWhileBusy) && t.pend == some 3) = true := by decide +kernel

/-- V-X15. -/
theorem test_writes_while_busy :
    accessing (.regWrite 32 0x008#12 9) pendingShaMsg
        (fun t => t.fault.has (.hostProtocol .writeWhileBusy) && t.len == 3) = true ∧
      accessing (.regWrite 32 0x08C#12 9) pendingShaMsg
        (fun t => t.fault.has (.hostProtocol .writeWhileBusy) && t.block == []) = true ∧
      accessing (.msgWrite 8 0 9) pendingShaMsg
        (fun t => t.fault.has (.hostProtocol .writeWhileBusy) && t.msg.read 0 == some 0x61#8) = true := by decide +kernel

/-- V-X17: BUSY plus the previous ERR. -/
theorem test_status_while_busy :
    accessing (.regRead 32 0x004#12) { pendingShaMsg with err := .illegal } (fun t => t.bus == some (.word 0x11#32)) =
      true := by decide +kernel

/-- V-X16: a read of SHA_H0 while busy draws a free value and faults nothing. -/
theorem test_output_read_while_busy :
    accessing (.regRead 32 0x020#12) pendingShaMsg (fun t => t.draws == 1 && t.fault == FaultSet.none && t.h == ivSha) =
      true := by decide +kernel

/-- V-X19. -/
theorem test_ignored_accesses :
    accessing (.regWrite 32 0x020#12 9) State.reset (fun t => t.h == ivSha && t.fault == FaultSet.none) = true ∧
      accessing (.regRead 32 0x050#12) State.reset (fun t => t.bus == some (.word 0)) = true ∧
      accessing (.regRead 32 0xFFC#12) State.reset (fun t => t.bus == some (.word 0)) = true := by decide +kernel

/-- P1 step 1: MsgWrite32(0, 0x00636261) stores 61 62 63 00. -/
theorem test_message_word_lanes :
    accessing (.msgWrite 32 0 0x00636261#32) State.reset
      (fun t => t.msg == [(0, 0x61#8), (1, 0x62#8), (2, 0x63#8), (3, 0x00#8)]) = true := by decide +kernel

/-- V-R10: reset while SHA_MSG is pending. -/
theorem test_reset_discards_the_command :
    answers (step { pendingShaMsg with agenda := [.reset] })
      (fun t => t.pend == none && t.statusWord == 0 && t.h == ivSha && t.len == 0 && t.msg == []) = true := by
  decide +kernel

/-- P7: a fault outlives reset. -/
theorem test_reset_keeps_faults :
    answers (step { State.reset with fault := FaultSet.none.add .uninitRead, agenda := [.reset] })
      (fun t => t.fault.has .uninitRead) = true := by decide +kernel

/-- R90: the words and accesses of `do PADBLK_SHA 1` and `setlen 56`. -/
theorem test_host_program_words :
    doCommand 0 (.padblkSha 1) =
        [.host (.regWrite 32 0x000#12 0x00000104#32), .core, .host (.regRead 32 0x004#12)] ∧
      setLen 56 = [.host (.regWrite 32 0x008#12 0x38#32), .host (.regWrite 32 0x00C#12 0)] := by decide

/-- R90, V-D5: the last step of `djb2 "hello"`, at both widths. -/
theorem test_djb2_value :
    djb2Value Config.standard 0x0F923099#32 0x00000031#32 = 210714636441 ∧
      djb2Value { Config.standard with djbWidth := .w32 } 0x0F923099#32 0 = 261238937 := by decide

/-- The canonical form: bytes written out of order, and twice, give the same store. -/
theorem test_memory_is_canonical :
    (Memory.write (Memory.write [] 5 1#8) 2 3#8) = (Memory.write (Memory.write (Memory.write [] 2 9#8) 5 1#8) 2 3#8) ∧
      Memory.wf [(2, 3#8), (5, 1#8)] = true ∧ Memory.wf [(5, 3#8), (2, 1#8)] = false ∧
      Memory.wf [(2, 3#8), (2, 1#8)] = false := by decide

/-! Witnesses: a state and operands that meet the hypotheses of each statement that has any, clause by clause at the ends of
its range. -/

theorem abc_held : (withMessage abc).hasMessage abc :=
  ⟨rfl, by decide, by unfold Memory.holds; decide⟩

theorem test_witness_DecodeOfEncode : (Instr.padblkSha 0xFFFFFF#64).WellFormed ∧ (Instr.djbByte 0xFF#8).WellFormed := by
  decide

theorem test_witness_EncodeOfDecode :
    decode 0xFFFFFF14#32 = .ok (.padblkMd5 0xFFFFFF#64) ∧ decode 0x0000FF22#32 = .ok (.djbByte 0xFF#8) := by decide

theorem test_witness_DecodeFollowsTheOpcodeMap :
    decode 0xFFFFFF04#32 = .ok (.padblkSha 0xFFFFFF#64) ∧ decode 0x00000024#32 = .error .unassignedOpcode := by decide

/-- The largest capacity, the longest message, the last block: index 2^24 − 1. -/
theorem test_witness_EveryNeededBlockIndexEncodes :
    Config.legal ⟨2 ^ 30 - 9, .w64, .zext⟩ ∧ 2 ^ 30 - 9 ≤ (Config.mk (2 ^ 30 - 9) .w64 .zext).msgCap ∧
      (0xFFFFFF#64).toNat < nblk (2 ^ 30 - 9) ∧ ¬ 0x1000000 < nblk (2 ^ 30 - 9) := by decide

theorem test_witness_StepRunsThePendingCommand :
    pendingShaMsg.coreMoves ∧ pendingShaMsg.pend = some 0x00000003#32 ∧ decode 0x00000003#32 = .ok .shaMsg :=
  ⟨.inl rfl, rfl, by decide⟩

theorem test_witness_IllegalWordSetsErrAlone :
    State.coreMoves { State.reset with pend := some 0x05#32, agenda := [.core] } ∧
      ∀ r ∈ opcodeMap, r.selects 0x05#32 = false := ⟨.inr ⟨_, rfl⟩, by decide⟩

theorem test_witness_IdleCoreKeepsAllState : State.reset.coreMoves ∧ State.reset.pend = none := ⟨.inl rfl, rfl⟩

theorem test_witness_HostAccessIsOneStep :
    State.agenda { pendingShaMsg with agenda := [.host (.regRead 32 0x004#12)] } = [.host (.regRead 32 0x004#12)] ∧
      pendingShaMsg.pend ≠ none := ⟨rfl, by decide⟩

theorem test_witness_PendingCommandCompletes : pendingShaMsg.pend ≠ none := by decide

theorem test_witness_NopOnlyClearsErr :
    (0x00000100#32).toNat % 256 = 0 ∧ (0x00000100#32) ≠ 0 ∧ State.reset.agenda = [] ∧ State.reset.pend = none := by decide

theorem test_witness_BlockCommandsCompressTheBuffer :
    (List.replicate 64 0#8).length = 64 ∧ (withBlock (List.replicate 64 0#8) State.reset).block.holds 0
      (List.replicate 64 0#8) := ⟨rfl, by unfold Memory.holds; decide +kernel⟩

/-- The empty message, "abc", and a message of MSG_CAP bytes; also for the message statements below. -/
theorem test_witness_MessageCommandsHashTheMessage :
    State.reset.hasMessage [] ∧ (withMessage abc).hasMessage abc ∧
      (smallCap 64).hasMessage (List.replicate 64 0x61#8) :=
  ⟨⟨rfl, by decide, by unfold Memory.holds; decide⟩, abc_held,
    ⟨by decide, by decide, by unfold Memory.holds; decide +kernel⟩⟩

/-- Block 0 of "abc"; the last block, all padding, of a 64-byte message. -/
theorem test_witness_PadblkLoadsThePaddedBlock :
    (abc.length = (withMessage abc).len.toNat ∧ (withMessage abc).len.toNat ≤ (withMessage abc).cfg.msgCap ∧
        (0#64).toNat < nblk (withMessage abc).len.toNat ∧
        ∀ p, p < 64 → 64 * (0#64).toNat ≤ p → p < min (withMessage abc).len.toNat (64 * (0#64).toNat + 64) →
          (withMessage abc).msg.read p = abc[p]?) ∧
      (List.replicate 64 0x61#8).length = (smallCap 64).len.toNat ∧
        (smallCap 64).len.toNat ≤ (smallCap 64).cfg.msgCap ∧ (1#64).toNat < nblk (smallCap 64).len.toNat ∧
        ∀ p, 64 * (1#64).toNat ≤ p → ¬ p < min (smallCap 64).len.toNat (64 * (1#64).toNat + 64) := by
  refine ⟨by decide, by decide, by decide, by decide, ?_⟩
  have : (smallCap 64).len.toNat = 64 := by decide
  rw [this]
  simp only [show (1#64).toNat = 1 from rfl]
  omega

theorem test_witness_CapacityErrorChangesErrAlone : (smallCap 65).cfg.msgCap < (smallCap 65).len.toNat := by decide

theorem test_witness_IndexErrorChangesErrAlone :
    (smallCap 64).len.toNat ≤ (smallCap 64).cfg.msgCap ∧ nblk (smallCap 64).len.toNat ≤ (2#64).toNat := by decide

/-- Illegal, over the capacity, past the last block, and none of them. -/
theorem test_witness_ErrorPriority :
    (smallCap 65).coreMoves ∧ decode 0x00000103#32 = .error .reservedArg ∧
      (decode 0x00000003#32 = .ok .shaMsg ∧ readsMessage .shaMsg = true ∧
        (smallCap 65).cfg.msgCap < (smallCap 65).len.toNat) ∧
      (decode 0x00000204#32 = .ok (.padblkSha 2) ∧ (smallCap 64).len.toNat ≤ (smallCap 64).cfg.msgCap ∧
        nblk (smallCap 64).len.toNat ≤ (2#64).toNat) ∧
      decode 0x00000002#32 = .ok .shaBlock ∧ readsMessage .shaBlock = false :=
  ⟨.inl rfl, by decide, by decide, by decide, by decide, by decide⟩

/-- Success, CAPACITY and INDEX each happen without a fault. -/
theorem test_witness_ErrorsLeaveNoPartialOutput :
    answers (exec .shaMsg (withMessage abc)) (fun t => !t.fault.has .uninitRead && t.err == .ok) = true ∧
      answers (exec .md5Msg (smallCap 65)) (fun t => !t.fault.has .uninitRead && t.err == .capacity) = true ∧
      answers (exec (.padblkMd5 2) (smallCap 64)) (fun t => !t.fault.has .uninitRead && t.err == .index) = true := by
  decide +kernel

theorem test_witness_UnwrittenBytesFaultTheCommand :
    (∃ a < 64, State.reset.block.read a = none) ∧
      (State.len { withMessage [0x61#8] with len := 2 }).toNat ≤ State.reset.cfg.msgCap ∧
      (∃ a < (State.len { withMessage [0x61#8] with len := 2 }).toNat, (withMessage [0x61#8]).msg.read a = none) ∧
      (0#64).toNat < nblk 2 ∧
      ∃ a, 64 * (0#64).toNat ≤ a ∧ a < min 2 (64 * (0#64).toNat + 64) ∧ (withMessage [0x61#8]).msg.read a = none :=
  ⟨⟨63, by decide, rfl⟩, by decide, ⟨1, by decide, by decide⟩, by decide, ⟨1, by decide, by decide, by decide⟩⟩

theorem test_witness_CommandFrame :
    (∃ t, exec (.djbByte 0x61#8) State.reset = .next t) ∧ writesH .djbMsg = false ∧ writesS .djbMsg = false ∧
      writesAcc .shaMsg = false ∧ writesBlock .shaMsg = false := ⟨⟨_, rfl⟩, rfl, rfl, rfl, rfl⟩

/-- A step that changes each register: a command, a host access, reset. -/
theorem test_witness_EachRegisterHasItsWriters :
    completing 0x01 { State.reset with h := ⟨0, 0, 0, 0, 0, 0, 0, 0⟩ } (fun t => t.h != ⟨0, 0, 0, 0, 0, 0, 0, 0⟩) = true ∧
      completing 0x11 { State.reset with s := ⟨0, 0, 0, 0⟩ } (fun t => t.s != ⟨0, 0, 0, 0⟩) = true ∧
      completing 0x21 { State.reset with acc := 0 } (fun t => t.acc != 0 && t.pend == none) = true ∧
      completing 0x04 State.reset (fun t => t.block != []) = true ∧
      completing 0x05 State.reset (fun t => t.err != .ok) = true ∧
      accessing (.regWrite 32 0x0BC#12 1) State.reset (fun t => t.block != []) = true ∧
      accessing (.msgWrite 8 4095 1) State.reset (fun t => t.msg != []) = true ∧
      accessing (.regWrite 32 0x00C#12 1) State.reset (fun t => t.len != 0) = true ∧
      accessing (.regWrite 32 0x000#12 1) State.reset (fun t => t.pend != none) = true ∧
      answers (step { withMessage abc with agenda := [.reset] }) (fun t => t.msg == [] && t.len == 0) = true := by
  decide +kernel

theorem test_witness_FaultsAreSticky :
    (∃ t, step { State.reset with fault := FaultSet.none.add .uninitRead } = .next t) ∧
      (FaultSet.none.add .uninitRead).has .uninitRead = true ∧
      ¬ State.good { State.reset with fault := FaultSet.none.add .uninitRead } :=
  ⟨⟨_, rfl⟩, rfl, by unfold State.good; decide⟩

theorem test_witness_StepKeepsTheInvariant : State.reset.Inv ∧ ∃ t, step State.reset = .next t :=
  ⟨⟨by decide, rfl, rfl, rfl, rfl, by decide⟩, ⟨_, rfl⟩⟩

theorem test_witness_ResetHasTheInvariant : Config.legal ⟨1, .w32, .sext⟩ ∧ Config.legal ⟨2 ^ 30 - 9, .w64, .zext⟩ := by
  decide

/-- Two blocks, and one: `hasMessage` is also the hypothesis of the chain statements. -/
theorem test_witness_ShaBlockChainHashesTheMessage :
    (smallCap 64).hasMessage (List.replicate 64 0x61#8) ∧ nblk (smallCap 64).len.toNat = 2 :=
  ⟨test_witness_MessageCommandsHashTheMessage.2.2, by decide⟩

theorem test_witness_Md5BlockChainHashesTheMessage : State.reset.hasMessage [] ∧ nblk State.reset.len.toNat = 1 :=
  ⟨test_witness_MessageCommandsHashTheMessage.1, by decide⟩

theorem test_witness_DjbByteChainEqualsDjbMsg : (withMessage abc).hasMessage abc := abc_held

/-- Two different states with the same message. -/
theorem test_witness_MessageCommandsForgetHistory :
    let s := withMessage abc
    let u := { withMessage abc with acc := 7, h := ⟨0, 0, 0, 0, 0, 0, 0, 0⟩, msg := Memory.writeBytes [] 0 (abc ++ [0#8]) }
    s.cfg = u.cfg ∧ s.len = u.len ∧ s.len.toNat ≤ s.cfg.msgCap ∧
      (∀ a < s.len.toNat, s.msg.read a ≠ none ∧ u.msg.read a = s.msg.read a) ∧ s ≠ u := by
  decide +kernel

theorem test_witness_ResetSetsEveryRegister :
    State.agenda { pendingShaMsg with agenda := [.reset, .core] } = .reset :: [.core] := rfl

/-- An offset for each clause, at the ends of each range. -/
theorem test_witness_RegisterMapReads :
    State.reset.pend = none ∧
      ([0x000#12, 0x008#12, 0x00C#12, 0x010#12, 0x014#12, 0x018#12, 0x01C#12, 0x020#12, 0x03C#12, 0x040#12, 0x04C#12,
          0x080#12, 0x0BC#12, 0x050#12, 0x07C#12, 0x0C0#12, 0xFFC#12].all fun off => decide (off.toNat % 4 = 0)) = true ∧
      (0x03C#12).toNat = 0x020 + 4 * 7 ∧ (0x04C#12).toNat = 0x040 + 4 * 3 ∧ (0x0BC#12).toNat = 0x080 + 4 * 15 ∧
      (withBlock (List.replicate 64 7#8) State.reset).block.holds 60 [7#8, 7#8, 7#8, 7#8] ∧
      ∃ b < 4, (withBlock (List.replicate 63 7#8) State.reset).block.read (4 * 15 + b) = none :=
  ⟨rfl, by decide, by decide, by decide, by decide, by unfold Memory.holds; decide +kernel,
    ⟨3, by decide, by decide +kernel⟩⟩

theorem test_witness_BusyReadsReturnAnything :
    pendingShaMsg.pend ≠ none ∧
      ([0x000#12, 0x04C#12].all fun off =>
        decide (off.toNat % 4 = 0 ∧ off.toNat ≠ 0x004 ∧ off.toNat < 0x050)) = true ∧
      (0x0BC#12).toNat % 4 = 0 ∧ (0x0BC#12).toNat = 0x080 + 4 * 15 ∧
      (∃ b < 4, pendingShaMsg.block.read (4 * 15 + b) = none) ∧
      (∀ b < 4, (withBlock (List.replicate 64 7#8) pendingShaMsg).block.read (4 * 15 + b) ≠ none) ∧
      2 < pendingShaMsg.cfg.msgCap ∧ pendingShaMsg.msg.read 2 = some 0x63#8 := by decide +kernel

theorem test_witness_BusyReadsReturnAnything_word :
    State.pend { withMessage (abc ++ abc ++ abc) with pend := some 3 } ≠ none ∧ 4 % 4 = 0 ∧
      4 + 3 < (withMessage (abc ++ abc ++ abc)).cfg.msgCap ∧
      (withMessage (abc ++ abc ++ abc)).msg.holds 4 [0x62#8, 0x63#8, 0x61#8, 0x62#8] :=
  ⟨by decide, by decide, by decide, by unfold Memory.holds; decide⟩

theorem test_witness_IssueAndCommandOverlap : State.reset.pend = none ∧ pendingShaMsg.pend ≠ none := by decide

theorem test_witness_InputWritesWhileBusyFault :
    pendingShaMsg.pend ≠ none ∧ (0x008#12).toNat = 0x008 ∧ (0x00C#12).toNat = 0x00C ∧
      (∃ k < 16, (0x0BC#12).toNat = 0x080 + 4 * k) ∧ 4095 < pendingShaMsg.cfg.msgCap ∧
      (4092 % 4 = 0 ∧ 4092 + 3 < pendingShaMsg.cfg.msgCap) :=
  ⟨by decide, by decide, by decide, ⟨15, by decide, by decide⟩, by decide, by decide⟩

theorem test_witness_MalformedRegAccessFaults : (8 ≠ 32 ∨ (0x000#12).toNat % 4 ≠ 0) ∧ (32 ≠ 32 ∨ (0xFFE#12).toNat % 4 ≠ 0) := by
  decide

/-- The first address past the end, the last word that crosses it, a misaligned word, another width; and the last legal
byte and word. -/
theorem test_witness_MsgAccessesOutsideTheFormsFault :
    let ok := fun bits a => bits = 8 ∧ a < State.reset.cfg.msgCap ∨ bits = 32 ∧ a % 4 = 0 ∧ a + 3 < State.reset.cfg.msgCap
    ¬ ok 8 4096 ∧ ¬ ok 32 4096 ∧ ¬ ok 32 4090 ∧ ¬ ok 16 0 ∧ ok 8 4095 ∧ ok 32 4092 := by decide

theorem test_witness_UnmappedAndReadOnlyAccesses :
    ([0x050#12, 0x07C#12, 0x0C0#12, 0xFFC#12].all fun off => decide (off.toNat % 4 = 0 ∧
        (0x050 ≤ off.toNat ∧ off.toNat < 0x080 ∨ 0x0C0 ≤ off.toNat))) = true ∧
      ([0x004#12, 0x010#12, 0x04C#12].all fun off => decide (off.toNat % 4 = 0 ∧
        (off.toNat = 0x004 ∨ 0x010 ≤ off.toNat ∧ off.toNat < 0x050))) = true := by decide

theorem test_witness_LenHalvesAreWrittenApart : State.reset.pend = none := rfl

theorem test_witness_BusLanesAreLittleEndian :
    State.reset.pend = none ∧ (0x0BC#12).toNat = 0x080 + 4 * 15 ∧ 4092 + 3 < State.reset.cfg.msgCap ∧
      4095 < State.reset.cfg.msgCap := by decide

theorem test_witness_ReadsReturnWhatWasWritten :
    State.reset.pend = none ∧ (0x008#12).toNat = 0x008 ∧ (0x00C#12).toNat = 0x00C ∧
      (∃ k < 16, (0x080#12).toNat = 0x080 + 4 * k) ∧ (4092 % 4 = 0 ∧ 4092 + 3 < State.reset.cfg.msgCap) ∧
      4095 < State.reset.cfg.msgCap := ⟨rfl, by decide, by decide, ⟨0, by decide, by decide⟩, by decide, by decide⟩

theorem test_witness_RotationsMoveEachBit :
    (31 ≤ 31 ∧ 31 < 32) ∧ (rotr 0x00000001#32 31).getLsbD 1 = true ∧ (rotl 0x00000001#32 31).getLsbD 31 = true := by decide

theorem test_witness_RoundFunctionsPerBit : 31 < 32 := by decide

theorem test_witness_ZeroFillIsMinimal : (56 + 1 + 63 + 8) % 64 = 0 ∧ zeroFill 56 ≤ 63 := by decide

/-- The last block of a 64-byte message. -/
theorem test_witness_PositionalFormIsThePadding : 1 < nblk (List.replicate 64 0x61#8).length ∧ 63 < 64 := by decide

theorem test_witness_ScheduleFollowsTheRecurrence :
    (pad .be abc).length = 64 ∧ (15 < 16) ∧ (16 ≤ 63 ∧ 63 < 64) := by decide +kernel

theorem test_witness_ByteAssemblyIsPositional : 2 ^ 64 - 1 < 2 ^ (8 * 8) ∧ 7 < 8 := by decide

/-- The last legal byte and word, and unwritten bytes: MSG[3] is the only one of its word. -/
theorem test_witness_MessageReadsReturnTheBytes :
    (withMessage abc).msg.read 2 = some 0x63#8 ∧ (withMessage abc).msg.read 3 = none ∧
      4095 < State.reset.cfg.msgCap ∧ (4092 % 4 = 0 ∧ 4092 + 3 < State.reset.cfg.msgCap) ∧
      (∃ b < 4, (withMessage abc).msg.read (0 + b) = none) ∧
      (withMessage (abc ++ abc)).msg.holds 0 [0x61#8, 0x62#8, 0x63#8, 0x61#8] :=
  ⟨by decide, by decide, by decide, by decide, ⟨3, by decide, by decide⟩, by unfold Memory.holds; decide⟩

theorem test_witness_SigmaFunctionsPerBit : 31 < 32 ∧ 28 + 3 < 32 ∧ ¬ 29 + 3 < 32 ∧ 21 + 10 < 32 ∧ ¬ 22 + 10 < 32 := by
  decide

theorem test_witness_DigestBytesAndHexDigits : (7 < 8 ∧ 3 < 4) ∧ [0x00#8, 0xBA#8][1]? = some 0xBA#8 := by decide

theorem test_witness_DjbReadsAssembleToTheAccumulator :
    State.reset.pend = none ∧ State.reset.acc.toNat < 2 ^ djbBits State.reset.cfg ∧
      (0xFFFFFFFF#64).toNat < 2 ^ djbBits ⟨4096, .w32, .zext⟩ ∧
      (0xFFFFFFFFFFFFFFFF#64).toNat < 2 ^ djbBits ⟨4096, .w64, .zext⟩ := by decide

end Sys2Proof.Machine.Tests
end

section
/-! SUPPORT. What one step can do to the state, said once: the effect of a command, of a host access and of a step, each as
the cases it can end in. The statements of 00_scope.md about every step are case analyses over these. -/

namespace Sys2Proof.Machine

/-! The effect of a command (R242, R248). -/

@[simp] theorem State.freeBytes_length (s : State) (n : Nat) : (s.freeBytes n).length = n := by
  simp [State.freeBytes]

/-- What command `i`, run on `s`, can end in: ERR alone changes, or also the one register `i` writes. FAULT gains at most
UninitRead. -/
inductive CommandEffect (i : Instr) (s : State) : State → Prop
  | errAlone (e : ErrCode) : CommandEffect i s { s with err := e }
  | setsH (hw : writesH i = true) (r : ShaRegs) {f : FaultSet} (hf : f = s.fault ∨ f = s.fault.add .uninitRead)
      (e : ErrCode) (n : Nat) : CommandEffect i s { s with h := r, err := e, fault := f, draws := n }
  | setsS (hw : writesS i = true) (r : Md5Regs) {f : FaultSet} (hf : f = s.fault ∨ f = s.fault.add .uninitRead)
      (e : ErrCode) (n : Nat) : CommandEffect i s { s with s := r, err := e, fault := f, draws := n }
  | setsAcc (hw : writesAcc i = true) (x : DWord) (hx : x.toNat < 2 ^ djbBits s.cfg) {f : FaultSet}
      (hf : f = s.fault ∨ f = s.fault.add .uninitRead) (e : ErrCode) (n : Nat) :
      CommandEffect i s { s with acc := x, err := e, fault := f, draws := n }
  | setsBlock (hw : writesBlock i = true) (bs : List Byte) (hl : bs.length = 64) {f : FaultSet}
      (hf : f = s.fault ∨ f = s.fault.add .uninitRead) (e : ErrCode) (n : Nat) :
      CommandEffect i s { s with block := s.block.writeBytes 0 bs, err := e, fault := f, draws := n }

/-- A command that reads MSG or BLOCK has an effect of `i` when its success and its fault have; a raised error changes ERR
alone (R265). -/
theorem complete_effect {i : Instr} {s t : State} {op : Except Stop (List Byte)} {w : List Byte → State}
    {scr : State → State} (h : complete s op w scr = .next t) (hop : StopsWith op)
    (hok : ∀ bs, CommandEffect i s (w bs).succeed)
    (hfault : CommandEffect i s (scr (s.recordFault .uninitRead)).scrambleErr) : CommandEffect i s t := by
  cases hop with
  | bytes bs =>
    obtain rfl := Host.Outcome.next.inj h
    exact hok bs
  | capacity =>
    obtain rfl := Host.Outcome.next.inj h
    exact .errAlone .capacity
  | index =>
    obtain rfl := Host.Outcome.next.inj h
    exact .errAlone .index
  | uninit =>
    obtain rfl := Host.Outcome.next.inj h
    exact hfault

/-- PADBLK of either byte order writes BLOCK (R146, R147). -/
theorem padBlockCommand_effect {i : Instr} (hw : writesBlock i = true) {e : Endian} {j : DWord} {s t : State}
    (h : padBlockCommand e j s = .next t) : CommandEffect i s t :=
  complete_effect h (segmentOperand_stopsWith s j)
    (fun bs => .setsBlock hw _ (padBlock_length e s.len.toNat j.toNat bs) (.inl rfl) _ _)
    (.setsBlock hw _ (State.freeBytes_length _ 64) (.inr rfl) _ _)

/-- Everything a command can do. -/
theorem exec_effect {i : Instr} {s t : State} (h : exec i s = .next t) : CommandEffect i s t := by
  cases i with
  | nop =>
    obtain rfl := Host.Outcome.next.inj h
    exact .errAlone .ok
  | shaInit =>
    obtain rfl := Host.Outcome.next.inj h
    exact .setsH rfl _ (.inl rfl) _ _
  | shaBlock =>
    exact complete_effect h (blockOperand_stopsWith s) (fun _ => .setsH rfl _ (.inl rfl) _ _)
      (.setsH rfl _ (.inr rfl) _ _)
  | shaMsg =>
    exact complete_effect h (messageOperand_stopsWith s) (fun _ => .setsH rfl _ (.inl rfl) _ _)
      (.setsH rfl _ (.inr rfl) _ _)
  | padblkSha j => exact padBlockCommand_effect rfl h
  | md5Init =>
    obtain rfl := Host.Outcome.next.inj h
    exact .setsS rfl _ (.inl rfl) _ _
  | md5Block =>
    exact complete_effect h (blockOperand_stopsWith s) (fun _ => .setsS rfl _ (.inl rfl) _ _)
      (.setsS rfl _ (.inr rfl) _ _)
  | md5Msg =>
    exact complete_effect h (messageOperand_stopsWith s) (fun _ => .setsS rfl _ (.inl rfl) _ _)
      (.setsS rfl _ (.inr rfl) _ _)
  | padblkMd5 j => exact padBlockCommand_effect rfl h
  | djbInit =>
    obtain rfl := Host.Outcome.next.inj h
    exact .setsAcc rfl _ (djbSeed_lt s.cfg) (.inl rfl) _ _
  | djbByte b =>
    obtain rfl := Host.Outcome.next.inj h
    exact .setsAcc rfl _ (djbStep_lt s.cfg s.acc b) (.inl rfl) _ _
  | djbMsg =>
    exact complete_effect h (messageOperand_stopsWith s)
      (fun m => .setsAcc rfl _ (djb2_lt s.cfg m) (.inl rfl) _ _)
      (.setsAcc rfl _ (djbReduce_lt s.cfg _) (.inr rfl) _ _)

/-- H, S, ACC and BLOCK change only by the commands that write them; a command writes no MSG, LEN, PEND or parameter. -/
theorem CommandEffect.writers {i : Instr} {s t : State} (he : CommandEffect i s t) :
    (t.h ≠ s.h → writesH i = true) ∧ (t.s ≠ s.s → writesS i = true) ∧ (t.acc ≠ s.acc → writesAcc i = true) ∧
      (t.block ≠ s.block → writesBlock i = true) ∧ t.msg = s.msg ∧ t.len = s.len ∧ t.pend = s.pend ∧
      t.cfg = s.cfg := by
  cases he with
  | errAlone => simp
  | setsH hw => simp [hw]
  | setsS hw => simp [hw]
  | setsAcc hw => simp [hw]
  | setsBlock hw => simp [hw]

/-! The effect of a host access (R61, R240, R295). -/

/-- What host access `x`, made on `s`, can end in: an answer on the bus with at most one fault recorded; or, while no command
is pending, a write of the one register or memory it names. -/
inductive HostEffect (s : State) (x : HostAccess) : State → Prop
  | answers {f : FaultSet} (hf : f = s.fault ∨ ∃ r, f = s.fault.add r) (n : Nat) (b : Option BusValue) :
      HostEffect s x { s with fault := f, draws := n, bus := b }
  | issues (hp : s.pend = none) (hx : writesReg 0x000 x) (c : Word) :
      HostEffect s x { s with pend := some c, bus := none }
  | setsLen (hp : s.pend = none) (hx : writesReg 0x008 x ∨ writesReg 0x00C x) (v : DWord) :
      HostEffect s x { s with len := v, bus := none }
  | setsBlock (hp : s.pend = none) (k : Fin 16) (hx : writesReg (0x080 + 4 * k.val) x) (v : Word) :
      HostEffect s x { s with block := s.block.writeWord (4 * k.val) v, bus := none }
  | setsMsg (hp : s.pend = none) {bits a : Nat} {v : Word} (hx : x = .msgWrite bits a v)
      (hok : msgAccessOk s bits a = true) :
      HostEffect s x { s with
        msg := if bits = 8 then s.msg.write a (v.setWidth 8) else s.msg.writeWord a v
        bus := none }

theorem returns_effect (s : State) (x : HostAccess) (v : BusValue) : HostEffect s x (s.returns v) :=
  .answers (.inl rfl) _ _

theorem accessFault_effect (s : State) (x : HostAccess) (r : Fault) : HostEffect s x (s.accessFault r) :=
  .answers (.inr ⟨r, rfl⟩) _ _

theorem busyRead_effect (s : State) (x : HostAccess) (v : Option Word) : HostEffect s x (s.busyRead v) := by
  cases v with
  | some v => exact .answers (.inl rfl) _ _
  | none => exact .answers (.inr ⟨.uninitRead, rfl⟩) _ _

/-- A write to an input has the effect it has while idle, or is a fault (R295). -/
theorem writeInput_effect {s : State} {x : HostAccess} {w : State}
    (hidle : s.pend = none → HostEffect s x w.returnsNothing) : HostEffect s x (writeInput s w) := by
  by_cases hp : s.pend = none
  · rw [writeInput_idle w hp]
    exact hidle hp
  · rw [writeInput_busy w hp]
    exact accessFault_effect s x _

/-- A write to CMD issues, or is the overlap fault (R240, R294). -/
theorem writeCmd_effect {s : State} {x : HostAccess} (hx : writesReg 0x000 x) (c : Word) :
    HostEffect s x (writeCmd s c) := by
  by_cases hp : s.pend = none
  · rw [writeCmd_idle c hp]
    exact .issues hp hx c
  · rw [writeCmd_busy c hp]
    exact accessFault_effect s x _

theorem regWrite_effect (s : State) (bits : Nat) (off : BitVec 12) (v : Word) :
    HostEffect s (.regWrite bits off v) (regWrite s bits off v) := by
  obtain ⟨-, h⟩ | ⟨rfl, ha, hcases⟩ := regWrite_cases s bits off v
  · rw [h]
    exact accessFault_effect s _ _
  · have hat : ∀ {r : Reg}, regAt off = some r → writesReg r.offset (.regWrite 32 off v) :=
      fun hr => ⟨off, v, rfl, regAt_offset hr ha⟩
    obtain h | ⟨hr, h⟩ | ⟨hr, h⟩ | ⟨hr, h⟩ | ⟨k, hr, h⟩ := hcases <;> rw [h]
    · exact .answers (.inl rfl) _ _
    · exact writeCmd_effect (hat hr) v
    · exact writeInput_effect fun hp => .setsLen hp (.inl (hat hr)) _
    · exact writeInput_effect fun hp => .setsLen hp (.inr (hat hr)) _
    · exact writeInput_effect fun hp => .setsBlock hp k (hat hr) v

/-- Everything a host access can do. -/
theorem hostAccess_effect (s : State) (x : HostAccess) : HostEffect s x (hostAccess s x) := by
  cases x with
  | regRead bits off =>
    simp only [hostAccess]
    obtain ⟨v, h⟩ | ⟨-, v, h⟩ | h | ⟨-, h⟩ := regRead_cases s bits off <;> rw [h]
    · exact returns_effect s _ v
    · exact busyRead_effect s _ v
    · exact accessFault_effect s _ _
    · exact accessFault_effect s _ _
  | regWrite bits off v => exact regWrite_effect s bits off v
  | msgRead bits a =>
    simp only [hostAccess]
    obtain ⟨v, h⟩ | h | ⟨-, h⟩ := msgRead_cases s bits a <;> rw [h]
    · exact returns_effect s _ v
    · exact accessFault_effect s _ _
    · exact accessFault_effect s _ _
  | msgWrite bits a v =>
    simp only [hostAccess]
    obtain ⟨-, h⟩ | ⟨hok, h⟩ := msgWrite_cases s bits a v <;> rw [h]
    · exact accessFault_effect s _ _
    · exact writeInput_effect fun hp => .setsMsg hp rfl hok

/-- BLOCK, MSG, LEN and PEND change only by a host write that names them, made while no command is pending. -/
theorem HostEffect.writers {s t : State} {x : HostAccess} (he : HostEffect s x t) :
    (t.block ≠ s.block → s.pend = none ∧ ∃ k < 16, writesReg (0x080 + 4 * k) x) ∧
      (t.msg ≠ s.msg → s.pend = none ∧ ∃ bits a v, x = .msgWrite bits a v) ∧
      (t.len ≠ s.len → s.pend = none ∧ (writesReg 0x008 x ∨ writesReg 0x00C x)) ∧
      (t.pend ≠ s.pend → s.pend = none ∧ writesReg 0x000 x) := by
  cases he with
  | answers => simp
  | issues hp hx => simp [hp, hx]
  | setsLen hp hx => simp [hp, hx]
  | setsBlock hp k hx => exact ⟨fun _ => ⟨hp, k.val, k.isLt, hx⟩, by simp, by simp, by simp⟩
  | setsMsg hp hx => exact ⟨by simp, fun _ => ⟨hp, _, _, _, hx⟩, by simp, by simp⟩

/-! The effect of a step (R6). -/

/-- What a step from `s` can be: an idle turn of the core, the completion of a command or of an illegal word, a host access,
or reset. -/
inductive StepEffect (s : State) : State → Prop
  | idle (hm : s.coreMoves) (hp : s.pend = none) : StepEffect s { s with agenda := s.agenda.tail }
  | command {t : State} {c : Word} {i : Instr} (hm : s.coreMoves) (hp : s.pend = some c) (hd : decode c = .ok i)
      (he : CommandEffect i s.taken t) : StepEffect s t
  | illegal {c : Word} {e : DecodeError} (hm : s.coreMoves) (hp : s.pend = some c) (hd : decode c = .error e) :
      StepEffect s (s.taken.raise .illegal)
  | host {x : HostAccess} {rest : List Event} (ha : s.agenda = .host x :: rest) :
      StepEffect s (hostAccess { s with agenda := rest } x)
  | reset {rest : List Event} (ha : s.agenda = .reset :: rest) :
      StepEffect s (State.applyReset { s with agenda := rest })

/-- What a step on the core's turn can do. -/
theorem step_effect_of_coreMoves {s t : State} (hm : s.coreMoves) (h : step s = .next t) : StepEffect s t := by
  rw [step_core hm] at h
  obtain ⟨hp, rfl⟩ | ⟨c, i, hp, hd, he⟩ | ⟨c, e, hp, hd, rfl⟩ := coreTurn_cases h
  · exact .idle hm hp
  · exact .command hm hp hd (exec_effect he)
  · exact .illegal hm hp hd

/-- Everything a step can do. -/
theorem step_effect {s t : State} (h : step s = .next t) : StepEffect s t := by
  obtain ⟨ha, -⟩ | ⟨rest, ha, -⟩ | ⟨x, rest, ha, rfl⟩ | ⟨rest, ha, rfl⟩ := step_cases h
  · exact step_effect_of_coreMoves (.inl ha) h
  · exact step_effect_of_coreMoves (.inr ⟨rest, ha⟩) h
  · exact .host ha
  · exact .reset ha

end Sys2Proof.Machine
end

section
/-! PROOFS. The statements of 00_scope.md: the invariant and who may write what. -/

namespace Sys2Proof.Machine

/-! Every effect keeps the invariant. -/

theorem State.resetWith_inv {c : Config} (hc : c.legal) : (State.resetWith c).Inv where
  legal := hc
  msgWf := rfl
  msgWithin := rfl
  blockWf := rfl
  blockWithin := rfl
  accFits := djbSeed_lt c

theorem CommandEffect.keeps_inv {i : Instr} {s t : State} (he : CommandEffect i s t) (hs : s.Inv) : t.Inv := by
  cases he with
  | errAlone | setsH | setsS => exact { hs with }
  | setsAcc _ _ hx => exact { hs with accFits := hx }
  | setsBlock _ bs hl =>
    exact { hs with
      blockWf := Memory.writeBytes_wf 0 bs hs.blockWf
      blockWithin := Memory.writeBytes_within bs hs.blockWithin (by omega) }

/-- A legal message write stores inside MSG[0..MSG_CAP) (R54). -/
theorem msg_written_inv {s : State} (hs : s.Inv) {bits a : Nat} (v : Word) (hok : msgAccessOk s bits a = true) :
    State.Inv { s with msg := if bits = 8 then s.msg.write a (v.setWidth 8) else s.msg.writeWord a v } := by
  obtain ⟨rfl, ha⟩ | ⟨rfl, -, ha⟩ := (msgAccessOk_iff s bits a).1 hok
  · exact { hs with
      msgWf := Memory.write_wf a _ hs.msgWf
      msgWithin := Memory.write_within _ hs.msgWithin ha }
  · exact { hs with
      msgWf := Memory.writeWord_wf a v hs.msgWf
      msgWithin := Memory.writeWord_within v hs.msgWithin ha }

theorem HostEffect.keeps_inv {s t : State} {x : HostAccess} (he : HostEffect s x t) (hs : s.Inv) : t.Inv := by
  cases he with
  | answers | issues | setsLen => exact { hs with }
  | setsBlock _ k _ v =>
    exact { hs with
      blockWf := Memory.writeWord_wf _ v hs.blockWf
      blockWithin := Memory.writeWord_within v hs.blockWithin (by omega) }
  | setsMsg _ _ hok => exact { msg_written_inv hs _ hok with }

theorem StepEffect.keeps_inv {s t : State} (he : StepEffect s t) (hs : s.Inv) : t.Inv := by
  cases he with
  | idle | illegal => exact { hs with }
  | command _ _ _ he => exact he.keeps_inv { hs with }
  | host => exact (hostAccess_effect _ _).keeps_inv { hs with }
  | reset => exact { State.resetWith_inv hs.legal with }

/-- Settles O26: every effect a step can have keeps the invariant. -/
theorem stepKeepsTheInvariant : Obligations.StepKeepsTheInvariant :=
  fun _ _ hs h => (step_effect h).keeps_inv hs

/-- Settles O27: the standard parameters are legal, and reset starts from empty stores and the seed. -/
theorem resetHasTheInvariant : Obligations.ResetHasTheInvariant :=
  ⟨State.resetWith_inv (by decide), fun _ => State.resetWith_inv⟩

/-- Settles O24, by the cases of a step: an idle turn changes the agenda alone, a completion what its command writes, a host
access what it names, and reset may change everything but the parameters. -/
theorem eachRegisterHasItsWriters : Obligations.EachRegisterHasItsWriters := by
  unfold Obligations.EachRegisterHasItsWriters
  intro s t h
  cases step_effect h with
  | idle => simp
  | @command _ c i hm hp hd he =>
    obtain ⟨hh, hs, hacc, hblock, hmsg, hlen, -, hcfg⟩ := he.writers
    have completes : ∀ {p : Instr → Bool}, p i = true → s.completes p := fun hi => ⟨hm, c, i, hp, hd, hi⟩
    exact ⟨fun hne => .inr (completes (hh hne)), fun hne => .inr (completes (hs hne)),
      fun hne => .inr (completes (hacc hne)), fun hne => .inr (.inl (completes (hblock hne))),
      fun hne => absurd hmsg hne, fun hne => absurd hlen hne, fun _ => .inr (.inl hm),
      fun _ => .inr ⟨hm, by simp [hp]⟩, hcfg⟩
  | illegal hm hp => simp [State.taken, hm, hp]
  | @host x rest ha =>
    obtain ⟨hcfg, herr, hacc, hh, hs, -⟩ := hostAccess_frame { s with agenda := rest } x
    obtain ⟨hblock, hmsg, hlen, hpend⟩ := (hostAccess_effect { s with agenda := rest } x).writers
    have idle : ∀ {q : HostAccess → Prop}, s.pend = none ∧ q x → s.idleAccess q :=
      fun ⟨hp, hq⟩ => ⟨hp, x, rest, ha, hq⟩
    exact ⟨fun hne => absurd hh hne, fun hne => absurd hs hne, fun hne => absurd hacc hne,
      fun hne => .inr (.inr (idle (hblock hne))), fun hne => .inr (idle (hmsg hne)),
      fun hne => .inr (idle (hlen hne)), fun hne => .inr (.inr (idle (hpend hne))), fun hne => absurd herr hne, hcfg⟩
  | reset ha =>
    have resets : s.resets := ⟨_, ha⟩
    simp [resets]

/-- A padded message has at most 2^24 blocks: (2^30 − 9 + 8) / 64 + 1 (R8, R143, R146). -/
theorem nblk_le_of_legal {c : Config} (hc : c.legal) {len : Nat} (hl : len ≤ c.msgCap) : nblk len ≤ 2 ^ 24 := by
  obtain ⟨-, hcap⟩ := hc
  unfold nblk
  omega

/-- Settles O6: an index below nblk is below 2^24, and that is all the J form asks of it. -/
theorem everyNeededBlockIndexEncodes : Obligations.EveryNeededBlockIndexEncodes := by
  unfold Obligations.EveryNeededBlockIndexEncodes
  intro c hc len j hl hj
  have hfits : indexFits j := hj.trans_le (nblk_le_of_legal hc hl)
  exact ⟨decide_eq_true hfits, decide_eq_true hfits⟩

end Sys2Proof.Machine
end

section
/-! PROOFS. The statements of 10_state.md: what the host reads at each register and message address, idle and busy, LEN's two
halves, and the commands that meet an unwritten byte. -/

namespace Sys2Proof.Machine

/-! A word read of a byte store (R36, R55). -/

/-- Four written bytes read as their little-endian word (R55, R58). -/
theorem Memory.readWord_of_holds {m : Memory} {a : Nat} {b0 b1 b2 b3 : Byte} (h : m.holds a [b0, b1, b2, b3]) :
    m.readWord a = some (b3 ++ b2 ++ b1 ++ b0) := by
  simp only [Memory.holds_cons] at h
  obtain ⟨h0, h1, h2, h3, -⟩ := h
  simp only [Memory.readWord, h0, h1, h2, h3, le32]

/-- A word has no value exactly when one of its four bytes is unwritten (R36). -/
theorem Memory.readWord_eq_none (m : Memory) (a : Nat) : m.readWord a = none ↔ ∃ b < 4, m.read (a + b) = none := by
  have hbytes : m.readWord a = none ↔ m.readBytes a 4 = none := by
    simp only [Memory.readWord, Memory.readBytes]
    cases m.read a <;> cases m.read (a + 1) <;> cases m.read (a + 2) <;> cases m.read (a + 3) <;> simp
  rw [hbytes, Memory.readBytes_eq_none]

/-! Register reads at a register's own offset (R52, R60). -/

theorem Reg.offset_mod_four (r : Reg) : r.offset % 4 = 0 := by
  cases r <;> simp only [Reg.offset] <;> omega

/-- The map selects each register at its own offset (R60). -/
theorem regAtIndex_offset_div (r : Reg) : regAtIndex (r.offset / 4) = some r := by
  cases r with
  | shaH k => revert k; decide
  | md5 k => revert k; decide
  | blockW k => revert k; decide
  | _ => rfl

theorem regAt_of_offset {off : BitVec 12} {r : Reg} (h : off.toNat = r.offset) : regAt off = some r := by
  rw [regAt_of_toNat h, regAtIndex_offset_div]

/-- Below the BLOCK words the map has no gap: indices 0 to 19 are the registers before the unmapped range (R60). -/
theorem regAtIndex_below_block {i : Nat} (h : i < 20) : ∃ r, regAtIndex i = some r ∧ ∀ k, r ≠ .blockW k := by
  interval_cases i <;> exact ⟨_, rfl, nofun⟩

theorem regRead_status (s : State) {off : BitVec 12} (h : off.toNat = Reg.status.offset) :
    regRead s 32 off = { s with bus := some (.word s.statusWord) } := by
  unfold regRead
  rw [if_pos ((regAccessOk_iff _ _).2 ⟨rfl, h ▸ Reg.offset_mod_four _⟩), regAt_of_offset h]
  rfl

theorem regRead_unmapped (s : State) {off : BitVec 12} (ha : off.toNat % 4 = 0) (h : regAt off = none) :
    regRead s 32 off = { s with bus := some (.word 0) } := by
  unfold regRead
  rw [if_pos ((regAccessOk_iff _ _).2 ⟨rfl, ha⟩), h]
  rfl

/-- While idle a register reads as what it holds, or faults (R36, R60). -/
theorem regRead_idle {s : State} (hp : s.pend = none) {off : BitVec 12} {r : Reg} (h : off.toNat = r.offset) :
    regRead s 32 off = s.returnsOrFaults ((s.regValue r).map .word) := by
  have hn : off.toNat = 4 * (off.toNat / 4) := by
    have := r.offset_mod_four
    omega
  have hr : regAtIndex (off.toNat / 4) = some r := regAt_of_offset h
  rw [regRead_at hp hn, hr]

theorem regRead_idle_some {s : State} (hp : s.pend = none) {off : BitVec 12} (r : Reg) (h : off.toNat = r.offset)
    {v : Word} (hv : s.regValue r = some v) : regRead s 32 off = { s with bus := some (.word v) } := by
  rw [regRead_idle hp h, hv]
  rfl

theorem regRead_idle_none {s : State} (hp : s.pend = none) {off : BitVec 12} (r : Reg) (h : off.toNat = r.offset)
    (hv : s.regValue r = none) :
    regRead s 32 off = { s with fault := s.fault.add .uninitRead, bus := none } := by
  rw [regRead_idle hp h, hv]
  rfl

/-- While a command is pending every mapped register but STATUS is read as `busyRead` says (R70, R296). -/
theorem regRead_busy {s : State} (hp : s.pend ≠ none) {off : BitVec 12} {r : Reg} (h : off.toNat = r.offset)
    (hr : r ≠ .status) : regRead s 32 off = s.busyRead (s.regValue r) := by
  have hb := (busy_iff s).2 hp
  unfold regRead
  rw [if_pos ((regAccessOk_iff _ _).2 ⟨rfl, h ▸ r.offset_mod_four⟩), regAt_of_offset h]
  cases r with
  | status => exact absurd rfl hr
  | _ => simp only [hb, if_true]

theorem regRead_busy_some {s : State} (hp : s.pend ≠ none) {off : BitVec 12} {r : Reg} (h : off.toNat = r.offset)
    (hr : r ≠ .status) {v : Word} (hv : s.regValue r = some v) :
    regRead s 32 off = { s with bus := some (.word (Config.freeWord s.draws)), draws := s.draws + 1 } := by
  rw [regRead_busy hp h hr, hv]
  rfl

theorem regRead_busy_none {s : State} (hp : s.pend ≠ none) {off : BitVec 12} {r : Reg} (h : off.toNat = r.offset)
    (hr : r ≠ .status) (hv : s.regValue r = none) :
    regRead s 32 off = { s with
      bus := some (.word (Config.freeWord s.draws)), draws := s.draws + 1, fault := s.fault.add .uninitRead } := by
  rw [regRead_busy hp h hr, hv]
  rfl

/-! What the registers hold (R21-R29). -/

/-- Only a BLOCK word can be without a value (R36). -/
theorem regValue_eq_some (s : State) {r : Reg} (h : ∀ k, r ≠ .blockW k) : ∃ v, s.regValue r = some v := by
  cases r with
  | blockW k => exact absurd rfl (h k)
  | _ => exact ⟨_, rfl⟩

theorem ShaRegs.get_eq_getD (r : ShaRegs) (k : Fin 8) :
    r.get k = [r.a, r.b, r.c, r.d, r.e, r.f, r.g, r.h].getD k 0 := by
  fin_cases k <;> rfl

theorem Md5Regs.get_eq_getD (r : Md5Regs) (k : Fin 4) : r.get k = [r.a, r.b, r.c, r.d].getD k 0 := by
  fin_cases k <;> rfl

theorem djbHiWord_eq (s : State) :
    s.djbHiWord = if s.cfg.djbWidth = .w64 then s.acc.extractLsb' 32 32 else 0 := by
  unfold State.djbHiWord
  cases s.cfg.djbWidth <;> rfl

/-- Settles O35: each clause is the idle read of one register at its offset; unmapped indices read 0. -/
theorem registerMapReads : Obligations.RegisterMapReads := by
  unfold Obligations.RegisterMapReads
  intro s off hp ha
  refine ⟨fun h => regRead_idle_some hp .cmd h rfl, fun h => regRead_idle_some hp .lenLo h rfl,
    fun h => regRead_idle_some hp .lenHi h rfl, fun h => regRead_idle_some hp .nblk h rfl,
    fun h => regRead_idle_some hp .cap h rfl, fun h => regRead_idle_some hp .djbLo h rfl,
    fun h => regRead_idle_some hp .djbHi h (congrArg some (djbHiWord_eq s)), fun k hk h => ?sha, fun k hk h => ?md5,
    fun k hk h b0 b1 b2 b3 hb => ?written, fun k hk h hb => ?unwritten, fun h => ?unmapped⟩
  case sha => exact regRead_idle_some hp (.shaH ⟨k, hk⟩) h (congrArg some (s.h.get_eq_getD ⟨k, hk⟩))
  case md5 => exact regRead_idle_some hp (.md5 ⟨k, hk⟩) h (congrArg some (s.s.get_eq_getD ⟨k, hk⟩))
  case written => exact regRead_idle_some hp (.blockW ⟨k, hk⟩) h (Memory.readWord_of_holds hb)
  case unwritten => exact regRead_idle_none hp (.blockW ⟨k, hk⟩) h ((Memory.readWord_eq_none _ _).2 hb)
  case unmapped => exact regRead_unmapped s ha (regAtIndex_unmapped (by omega))

/-! Message reads, idle or busy (R54, R55, R70). -/

theorem msgRead_byte {s : State} {a : Nat} (h : a < s.cfg.msgCap) :
    msgRead s 8 a = s.returnsOrFaults ((s.msg.read a).map .byte) := by
  unfold msgRead
  rw [if_pos ((msgAccessOk_iff _ _ _).2 (.inl ⟨rfl, h⟩)), if_pos rfl]

theorem msgRead_word {s : State} {a : Nat} (ha : a % 4 = 0) (h : a + 3 < s.cfg.msgCap) :
    msgRead s 32 a = s.returnsOrFaults ((s.msg.readWord a).map .word) := by
  unfold msgRead
  rw [if_pos ((msgAccessOk_iff _ _ _).2 (.inr ⟨rfl, ha, h⟩)), if_neg (by decide)]

/-- Settles O57: a legal message read returns what the store holds, or faults where it holds nothing. -/
theorem messageReadsReturnTheBytes : Obligations.MessageReadsReturnTheBytes := by
  unfold Obligations.MessageReadsReturnTheBytes
  intro s a
  refine ⟨fun h => ⟨fun b hb => ?byte, fun hb => ?noByte⟩,
    fun ha h => ⟨fun b0 b1 b2 b3 hb => ?word, fun hb => ?noWord⟩⟩
  case byte => rw [msgRead_byte h, hb]; rfl
  case noByte => rw [msgRead_byte h, hb]; rfl
  case word => rw [msgRead_word ha h, Memory.readWord_of_holds hb]; rfl
  case noWord => rw [msgRead_word ha h, (Memory.readWord_eq_none _ _).2 hb]; rfl

/-- Settles O36: registers below 0x050 always hold a value and BLOCK words may not; message reads do not look at PEND. -/
theorem busyReadsReturnAnything : Obligations.BusyReadsReturnAnything := by
  unfold Obligations.BusyReadsReturnAnything
  intro s off hp ha
  refine ⟨fun hs hlt => ?below, fun k hk h => ⟨fun hb => ?written, fun hb => ?unwritten⟩,
    fun a b hlt hb => ((messageReadsReturnTheBytes s a).1 hlt).1 b hb,
    fun a ha hlt => ((messageReadsReturnTheBytes s a).2 ha hlt).1⟩
  case below =>
    obtain ⟨r, hr, hblock⟩ := regAtIndex_below_block (i := off.toNat / 4) (by omega)
    obtain ⟨v, hv⟩ := regValue_eq_some s hblock
    have hoff := regAt_offset hr ha
    exact regRead_busy_some hp hoff (by rintro rfl; exact hs hoff) hv
  case written =>
    obtain ⟨v, hv⟩ : ∃ v, s.regValue (.blockW ⟨k, hk⟩) = some v := by
      rw [← Option.ne_none_iff_exists']
      intro hnone
      obtain ⟨b, hlt, hread⟩ := (Memory.readWord_eq_none _ _).1 hnone
      exact hb b hlt hread
    exact regRead_busy_some hp (r := .blockW ⟨k, hk⟩) h nofun hv
  case unwritten => exact regRead_busy_none hp (r := .blockW ⟨k, hk⟩) h nofun ((Memory.readWord_eq_none _ _).2 hb)

/-! The halves of a 64-bit value, by arithmetic (R23, R26, R90). -/

theorem toNat_append_words (hi lo : Word) : (hi ++ lo : DWord).toNat = hi.toNat * 2 ^ 32 + lo.toNat := by
  rw [BitVec.toNat_append, ← Nat.shiftLeft_add_eq_or_of_lt lo.isLt, Nat.shiftLeft_eq]

theorem toNat_low_word (x : DWord) : (x.extractLsb' 0 32).toNat = x.toNat % 2 ^ 32 := by
  simp

theorem toNat_high_word (x : DWord) : (x.extractLsb' 32 32).toNat = x.toNat / 2 ^ 32 := by
  rw [BitVec.extractLsb'_toNat, Nat.shiftRight_eq_div_pow]
  omega

theorem append_words_of_dword (x : DWord) : x.extractLsb' 32 32 ++ x.extractLsb' 0 32 = x := by
  apply BitVec.eq_of_toNat_eq
  rw [toNat_append_words, toNat_high_word, toNat_low_word]
  omega

/-- Settles O42: the written half is the word, the other half is the quotient or the remainder of LEN by 2^32. -/
theorem lenHalvesAreWrittenApart : Obligations.LenHalvesAreWrittenApart := by
  unfold Obligations.LenHalvesAreWrittenApart
  intro s v hp
  have hlo : regWrite s 32 0x008#12 v = (s.setLenLo v).returnsNothing := by
    rw [regWrite_at s v (n := 2) rfl]
    exact writeInput_idle _ hp
  have hhi : regWrite s 32 0x00C#12 v = (s.setLenHi v).returnsNothing := by
    rw [regWrite_at s v (n := 3) rfl]
    exact writeInput_idle _ hp
  exact ⟨⟨_, hlo, by rw [State.setLenLo_len, toNat_append_words, toNat_high_word]⟩,
    ⟨_, hhi, by rw [State.setLenHi_len, toNat_append_words, toNat_low_word]⟩⟩

/-- The two DJB words assemble to an accumulator that fits its width (R26, R90). -/
theorem djb2Value_of_regValues {s : State} (h : s.acc.toNat < 2 ^ djbBits s.cfg) :
    djb2Value s.cfg (s.acc.extractLsb' 0 32) s.djbHiWord = s.acc := by
  unfold djb2Value State.djbHiWord
  cases hw : s.cfg.djbWidth with
  | w32 =>
    have hfits : s.acc.toNat < 2 ^ 32 := by simpa only [djbBits, hw] using h
    apply BitVec.eq_of_toNat_eq
    rw [BitVec.toNat_setWidth, toNat_low_word]
    omega
  | w64 => exact append_words_of_dword s.acc

/-- Settles O60: the idle reads return the two words, and they assemble to ACC. -/
theorem djbReadsAssembleToTheAccumulator : Obligations.DjbReadsAssembleToTheAccumulator := by
  unfold Obligations.DjbReadsAssembleToTheAccumulator
  intro s hp hacc
  exact ⟨_, _, regRead_idle_some hp .djbLo rfl rfl, regRead_idle_some hp .djbHi rfl rfl, djb2Value_of_regValues hacc⟩

/-! STATUS (R22, R30). -/

theorem statusWord_toNat (s : State) : s.statusWord.toNat = s.busy.toNat + 16 * s.err.code.toNat := by
  unfold State.statusWord
  generalize s.busy = b
  cases s.err <;> cases b <;> rfl

theorem busy_toNat (s : State) : s.busy.toNat = if s.pend = none then 0 else 1 := by
  unfold State.busy
  cases s.pend <;> rfl

theorem ErrCode.code_le_three (e : ErrCode) : e.code.toNat ≤ 3 := by
  cases e <;> decide

/-- Settles O34, from the fields of STATUS and its read, which does not look at PEND. -/
theorem statusWordLayout : Obligations.StatusWordLayout := by
  unfold Obligations.StatusWordLayout
  intro s
  exact ⟨by rw [statusWord_toNat, busy_toNat], s.err.code_le_three, regRead_status s rfl⟩

/-! What the computed registers hold after power-on (R290). -/

/-- Idle, and the last completion a success (R22, R290). -/
theorem statusWord_resetWith (c : Config) : (State.resetWith c).statusWord = 0 :=
  (by decide : 0#24 ++ ErrCode.ok.code ++ 0#3 ++ BitVec.ofBool false = 0#32)

/-- The seed has no upper half, so DJB_HI is 0 after power-on at both widths (R26, R290). -/
theorem djbHiWord_resetWith (c : Config) : (State.resetWith c).djbHiWord = 0 := by
  rw [djbHiWord_eq]
  exact ite_eq_right_iff.2 fun _ => (by decide : djbSeed.extractLsb' 32 32 = 0)

/-- The empty message pads to one block (R24, R290). -/
theorem nblkWord_resetWith (c : Config) : (State.resetWith c).nblkWord = 1 :=
  (by decide : BitVec.ofNat 32 (nblk (0 : DWord).toNat) = 1)

/-- Settles O33: each read is the idle read of a register of the reset state. -/
theorem registersReadAfterReset : Obligations.RegistersReadAfterReset := by
  unfold Obligations.RegistersReadAfterReset
  intro c
  have reads : ∀ {off : BitVec 12} (r : Reg) {v : Word}, off.toNat = r.offset →
      (State.resetWith c).regValue r = some v → (regRead (State.resetWith c) 32 off).bus = some (.word v) :=
    fun r _ h hv => congrArg State.bus (regRead_idle_some rfl r h hv)
  have unwritten : (regRead (State.resetWith c) 32 0x080#12).fault = FaultSet.none.add .uninitRead :=
    congrArg State.fault (regRead_idle_none rfl (.blockW 0) rfl rfl)
  refine ⟨reads .cmd rfl rfl, reads .status rfl (congrArg some (statusWord_resetWith c)), reads .lenLo rfl rfl,
    reads .lenHi rfl (congrArg some (by decide : (0 : DWord).extractLsb' 32 32 = 0)),
    reads .nblk rfl (congrArg some (nblkWord_resetWith c)), reads .cap rfl rfl, reads .djbLo rfl rfl,
    reads .djbHi rfl (congrArg some (djbHiWord_resetWith c)), reads (.shaH 0) rfl rfl, reads (.md5 3) rfl rfl, ?_⟩
  rw [unwritten]
  exact FaultSet.has_add _ _

/-! Commands that meet an unwritten byte (R36, R242, R270). -/

theorem blockOperand_uninit {s : State} (h : ∃ a < 64, s.block.read a = none) :
    blockOperand s = .error (.faulted .uninitRead) :=
  needBytes_faulted.2 (by simpa using h)

theorem messageOperand_uninit {s : State} (hc : s.len.toNat ≤ s.cfg.msgCap)
    (h : ∃ a < s.len.toNat, s.msg.read a = none) : messageOperand s = .error (.faulted .uninitRead) := by
  unfold messageOperand
  rw [if_neg (by omega)]
  exact needBytes_faulted.2 (by simpa using h)

theorem segmentOperand_uninit {s : State} {j : DWord} (hc : s.len.toNat ≤ s.cfg.msgCap)
    (hj : j.toNat < nblk s.len.toNat)
    (h : ∃ a, 64 * j.toNat ≤ a ∧ a < min s.len.toNat (64 * j.toNat + 64) ∧ s.msg.read a = none) :
    segmentOperand s j = .error (.faulted .uninitRead) := by
  obtain ⟨a, hlo, hhi, hread⟩ := h
  rw [segmentOperand_reads hc hj, needBytes_faulted]
  refine ⟨a - 64 * j.toNat, by omega, ?_⟩
  rwa [Nat.add_sub_cancel' hlo]

/-- A command whose read meets an unwritten byte completes all the same, with its outputs and ERR free (R242). -/
theorem complete_uninit {s : State} {op : Except Stop (List Byte)} (h : op = .error (.faulted .uninitRead))
    (w : List Byte → State) (scr : State → State) :
    complete s op w scr = .next (scr (s.recordFault .uninitRead)).scrambleErr := by
  rw [h, complete_faulted]

/-- Settles O22: the operand of each command is the UninitRead fault, and what a faulted completion makes free is the
command's own register, ERR and the count of draws. -/
theorem unwrittenBytesFaultTheCommand : Obligations.UnwrittenBytesFaultTheCommand := by
  unfold Obligations.UnwrittenBytesFaultTheCommand
  intro s
  refine ⟨fun hb => ?block, fun hc hb => ?message, fun j hc hj hb => ?segment⟩
  case block =>
    have faults := complete_uninit (s := s) (blockOperand_uninit hb)
    exact ⟨⟨_, faults _ _, rfl, rfl⟩, ⟨_, faults _ _, rfl, rfl⟩⟩
  case message =>
    have faults := complete_uninit (s := s) (messageOperand_uninit hc hb)
    exact ⟨⟨_, faults _ _, rfl, rfl⟩, ⟨_, faults _ _, rfl, rfl⟩, ⟨_, faults _ _, rfl, rfl⟩⟩
  case segment =>
    have faults := complete_uninit (s := s) (segmentOperand_uninit hc hj hb)
    exact ⟨⟨_, faults _ _, rfl, rfl⟩, ⟨_, faults _ _, rfl, rfl⟩⟩

end Sys2Proof.Machine
end

section
/-! PROOFS. The statements of 20_memory.md: what a command and a host read leave unchanged, the accesses that fault or are
ignored, and what a host write stores and a read after it returns. -/

namespace Sys2Proof.Machine

/-! What a command leaves unchanged (R53, R242, R248). -/

/-- No command changes a byte outside BLOCK[0..63] (R29, R248). -/
theorem CommandEffect.block_read_outside {i : Instr} {s t : State} (he : CommandEffect i s t) {a : Nat} (ha : 64 ≤ a) :
    t.block.read a = s.block.read a := by
  cases he with
  | errAlone | setsH | setsS | setsAcc => rfl
  | setsBlock _ bs hl => exact Memory.read_writeBytes_outside s.block bs (.inr (by omega))

/-- The model's own agenda and bus are not a command's, and FAULT gains at most UninitRead (R270). -/
theorem CommandEffect.agenda_bus_fault {i : Instr} {s t : State} (he : CommandEffect i s t) :
    t.agenda = s.agenda ∧ t.bus = s.bus ∧ (t.fault = s.fault ∨ t.fault = s.fault.add .uninitRead) := by
  cases he with
  | errAlone => exact ⟨rfl, rfl, .inl rfl⟩
  | setsH _ _ hf | setsS _ _ hf | setsAcc _ _ _ hf | setsBlock _ _ _ hf => exact ⟨rfl, rfl, hf⟩

/-- Settles O23: a register that changed is in the command's write set, so one outside it did not change. -/
theorem commandFrame : Obligations.CommandFrame := by
  unfold Obligations.CommandFrame
  intro i s t h
  have he := exec_effect h
  obtain ⟨hh, hs, hacc, hblock, hmsg, hlen, hpend, hcfg⟩ := he.writers
  obtain ⟨hagenda, hbus, hfault⟩ := he.agenda_bus_fault
  have kept : ∀ {α : Type} {x y : α} {p : Instr → Bool}, (x ≠ y → p i = true) → p i = false → x = y :=
    fun hw hp => by_contra fun hne => Bool.false_ne_true (hp ▸ hw hne)
  exact ⟨hcfg, hpend, hlen, hagenda, hbus, fun _ => by rw [hmsg], kept hh, kept hs, kept hacc,
    fun hw _ => by rw [kept hblock hw], fun _ ha => he.block_read_outside ha, hfault⟩

/-! Accesses that are no access of their space (R52, R54). -/

theorem regRead_malformed (s : State) {bits : Nat} {off : BitVec 12} (h : regAccessOk bits off = false) :
    regRead s bits off = s.accessFault (.hostProtocol .regAccess) := by
  unfold regRead
  rw [if_neg (by simp [h])]

theorem regWrite_malformed (s : State) {bits : Nat} {off : BitVec 12} (v : Word) (h : regAccessOk bits off = false) :
    regWrite s bits off v = s.accessFault (.hostProtocol .regAccess) := by
  unfold regWrite
  rw [if_neg (by simp [h])]

theorem msgRead_illegal {s : State} {bits a : Nat} (h : msgAccessOk s bits a = false) :
    msgRead s bits a = s.accessFault (.hostProtocol .msgAccess) := by
  unfold msgRead
  rw [if_neg (by simp [h])]

theorem msgWrite_illegal {s : State} {bits a : Nat} (v : Word) (h : msgAccessOk s bits a = false) :
    msgWrite s bits a v = s.accessFault (.hostProtocol .msgAccess) := by
  unfold msgWrite
  rw [if_neg (by simp [h])]

theorem msgWrite_legal {s : State} {bits a : Nat} (v : Word) (h : msgAccessOk s bits a = true) :
    msgWrite s bits a v = writeInput s
      { s with msg := if bits = 8 then s.msg.write a (v.setWidth 8) else s.msg.writeWord a v } := by
  unfold msgWrite
  rw [if_pos h]

/-- Settles O39: the form is checked before anything else. -/
theorem malformedRegAccessFaults : Obligations.MalformedRegAccessFaults := by
  unfold Obligations.MalformedRegAccessFaults
  intro s bits off v h
  have hbad := (regAccessOk_eq_false bits off).2 h
  exact ⟨regRead_malformed s hbad, regWrite_malformed s v hbad⟩

/-- A legal message read can only fault UninitRead (R54, R270). -/
theorem msgRead_legal_keeps_msgAccess {s : State} {bits a : Nat} (h : msgAccessOk s bits a = true) :
    (msgRead s bits a).fault.has (.hostProtocol .msgAccess) = s.fault.has (.hostProtocol .msgAccess) := by
  obtain ⟨v, hr⟩ | hr | ⟨hbad, -⟩ := msgRead_cases s bits a
  · rw [hr]; rfl
  · rw [hr]; rfl
  · exact absurd h (by simp [hbad])

/-- A legal message write can only fault WriteWhileBusy (R54, R295). -/
theorem msgWrite_legal_keeps_msgAccess {s : State} {bits a : Nat} (v : Word) (h : msgAccessOk s bits a = true) :
    (msgWrite s bits a v).fault.has (.hostProtocol .msgAccess) = s.fault.has (.hostProtocol .msgAccess) := by
  rw [msgWrite_legal v h]
  by_cases hp : s.pend = none
  · rw [writeInput_idle _ hp]; rfl
  · rw [writeInput_busy _ hp]; rfl

/-- Settles O40, by the check of an access's form. -/
theorem msgAccessesOutsideTheFormsFault : Obligations.MsgAccessesOutsideTheFormsFault := by
  unfold Obligations.MsgAccessesOutsideTheFormsFault
  intro s bits a v
  refine ⟨fun h => ?illegal, fun h => ?legal⟩
  case illegal =>
    have hbad := (msgAccessOk_eq_false s bits a).2 h
    exact ⟨msgRead_illegal hbad, msgWrite_illegal v hbad⟩
  case legal =>
    have hok := (msgAccessOk_iff s bits a).2 h
    exact ⟨msgRead_legal_keeps_msgAccess hok, msgWrite_legal_keeps_msgAccess v hok⟩

/-! Accesses with no effect (R59, R61, R62). -/

/-- A write reaches CMD, LEN and the BLOCK words alone; at every other offset it is ignored, busy or not (R59, R60). -/
theorem regWrite_ignored (s : State) {off : BitVec 12} (v : Word) (ha : off.toNat % 4 = 0)
    (h : off.toNat = 0x004 ∨ 0x010 ≤ off.toNat ∧ off.toNat < 0x080 ∨ 0x0C0 ≤ off.toNat) :
    regWrite s 32 off v = { s with bus := none } := by
  have elsewhere : ∀ {r : Reg}, regAt off = some r → off.toNat = r.offset := fun hr => regAt_offset hr ha
  obtain ⟨hbad, -⟩ | ⟨-, -, hw | ⟨hr, -⟩ | ⟨hr, -⟩ | ⟨hr, -⟩ | ⟨k, hr, -⟩⟩ := regWrite_cases s 32 off v
  · exact absurd ha (by simpa using (regAccessOk_eq_false 32 off).1 hbad)
  · exact hw
  all_goals
    have hoff := elsewhere hr
    simp only [Reg.offset] at hoff
    omega

/-- Settles O41: no register is mapped at the free offsets, and none that a write reaches at the read-only ones. -/
theorem unmappedAndReadOnlyAccesses : Obligations.UnmappedAndReadOnlyAccesses := by
  unfold Obligations.UnmappedAndReadOnlyAccesses
  intro s off v ha
  exact ⟨fun h => ⟨regRead_unmapped s ha (regAtIndex_unmapped (by omega)), regWrite_ignored s v ha (by omega)⟩,
    fun h => regWrite_ignored s v ha (by omega)⟩

/-- Settles O45, by the cases of a read: a value, a free value, or a fault. -/
theorem hostReadsChangeNoState : Obligations.HostReadsChangeNoState := by
  unfold Obligations.HostReadsChangeNoState
  intro s bits off a
  constructor
  · obtain ⟨v, h⟩ | ⟨-, v, h⟩ | h | ⟨-, h⟩ := regRead_cases s bits off <;> rw [h]
    · exact ⟨_, _, _, rfl⟩
    · cases v <;> exact ⟨_, _, _, rfl⟩
    · exact ⟨_, _, _, rfl⟩
    · exact ⟨_, _, _, rfl⟩
  · obtain ⟨v, h⟩ | h | ⟨-, h⟩ := msgRead_cases s bits a <;> rw [h] <;> exact ⟨_, _, rfl⟩

/-- Settles O10: a host access changes PEND only while no command is pending. -/
theorem hostAccessIsOneStep : Obligations.HostAccessIsOneStep := by
  unfold Obligations.HostAccessIsOneStep
  intro s x rest ha
  obtain ⟨-, -, -, hpend⟩ := (hostAccess_effect { s with agenda := rest } x).writers
  exact ⟨step_cons ha, fun hbusy => by_contra fun hne => hbusy (hpend hne).1⟩

/-! What a host write stores while no command is pending (R23, R55, R58). -/

theorem regWrite_lenLo_idle {s : State} (hp : s.pend = none) {off : BitVec 12} (v : Word)
    (h : off.toNat = Reg.lenLo.offset) : regWrite s 32 off v = (s.setLenLo v).returnsNothing := by
  rw [regWrite_at s v (n := 2) h]
  exact writeInput_idle _ hp

theorem regWrite_lenHi_idle {s : State} (hp : s.pend = none) {off : BitVec 12} (v : Word)
    (h : off.toNat = Reg.lenHi.offset) : regWrite s 32 off v = (s.setLenHi v).returnsNothing := by
  rw [regWrite_at s v (n := 3) h]
  exact writeInput_idle _ hp

theorem regWrite_blockW_idle {s : State} (hp : s.pend = none) {off : BitVec 12} (v : Word) (k : Fin 16)
    (h : off.toNat = (Reg.blockW k).offset) :
    regWrite s 32 off v = { s with block := s.block.writeWord (4 * k.val) v, bus := none } := by
  simp only [Reg.offset] at h
  rw [regWrite_at s v (n := 32 + k.val) (by omega), regAtIndex_block k.isLt]
  exact writeInput_idle _ hp

theorem msgWrite_word_idle {s : State} (hp : s.pend = none) {a : Nat} (v : Word) (ha : a % 4 = 0)
    (h : a + 3 < s.cfg.msgCap) : msgWrite s 32 a v = { s with msg := s.msg.writeWord a v, bus := none } := by
  rw [msgWrite_legal v ((msgAccessOk_iff s 32 a).2 (.inr ⟨rfl, ha, h⟩)), if_neg (by decide)]
  exact writeInput_idle _ hp

theorem msgWrite_byte_idle {s : State} (hp : s.pend = none) {a : Nat} (v : Word) (h : a < s.cfg.msgCap) :
    msgWrite s 8 a v = { s with msg := s.msg.write a (v.extractLsb' 0 8), bus := none } := by
  rw [msgWrite_legal v ((msgAccessOk_iff s 8 a).2 (.inl ⟨rfl, h⟩)), if_pos rfl,
    BitVec.setWidth_eq_extractLsb' (by decide)]
  exact writeInput_idle _ hp

/-- Settles O43: each write stores one word or one byte, and the store's read laws say where its bytes lie. -/
theorem busLanesAreLittleEndian : Obligations.BusLanesAreLittleEndian := by
  unfold Obligations.BusLanesAreLittleEndian
  intro s v hp
  refine ⟨fun k off hk hoff => ?block, fun base ha hlt => ?word, fun base hlt => ?byte⟩
  case block =>
    exact ⟨_, regWrite_blockW_idle hp v ⟨k, hk⟩ hoff, fun _ hlane => Memory.read_writeWord _ _ v hlane,
      fun _ hout => Memory.read_writeWord_outside _ v hout⟩
  case word =>
    exact ⟨_, msgWrite_word_idle hp v ha hlt, fun _ hlane => Memory.read_writeWord _ _ v hlane,
      fun _ hout => Memory.read_writeWord_outside _ v hout⟩
  case byte =>
    exact ⟨_, msgWrite_byte_idle hp v hlt, Memory.read_write_same _ _ _,
      fun _ hne => Memory.read_write_other _ _ hne⟩

/-! A read after a write (R298). -/

theorem regRead_bus_idle {s : State} {off : BitVec 12} {v : Word} (hp : s.pend = none) (r : Reg)
    (h : off.toNat = r.offset) (hv : s.regValue r = some v) : (regRead s 32 off).bus = some (.word v) :=
  congrArg State.bus (regRead_idle_some hp r h hv)

theorem msgRead_word_bus {s : State} {a : Nat} {v : Word} (ha : a % 4 = 0) (h : a + 3 < s.cfg.msgCap)
    (hv : s.msg.readWord a = some v) : (msgRead s 32 a).bus = some (.word v) := by
  rw [msgRead_word ha h, hv]
  rfl

theorem msgRead_byte_bus {s : State} {a : Nat} {b : Byte} (h : a < s.cfg.msgCap) (hb : s.msg.read a = some b) :
    (msgRead s 8 a).bus = some (.byte b) := by
  rw [msgRead_byte h, hb]
  rfl

/-- Settles O44: what is read is the half of LEN, the BLOCK word, or the MSG word or byte that the write has just stored. -/
theorem readsReturnWhatWasWritten : Obligations.ReadsReturnWhatWasWritten := by
  unfold Obligations.ReadsReturnWhatWasWritten
  intro s v hp
  refine ⟨?reg, fun a ha h => ?word, fun a h => ?byte⟩
  case reg =>
    rintro off (h | h | ⟨k, hk, h⟩)
    · rw [regWrite_lenLo_idle hp v h]
      exact regRead_bus_idle hp .lenLo h (congrArg some BitVec.extractLsb'_append_eq_right)
    · rw [regWrite_lenHi_idle hp v h]
      exact regRead_bus_idle hp .lenHi h (congrArg some BitVec.extractLsb'_append_eq_left)
    · rw [regWrite_blockW_idle hp v ⟨k, hk⟩ h]
      exact regRead_bus_idle hp (.blockW ⟨k, hk⟩) h (s.block.readWord_writeWord _ v)
  case word =>
    rw [msgWrite_word_idle hp v ha h]
    exact msgRead_word_bus ha h (s.msg.readWord_writeWord a v)
  case byte =>
    rw [msgWrite_byte_idle hp v h]
    exact msgRead_byte_bus h (s.msg.read_write_same a _)

end Sys2Proof.Machine
end

section
/-! PROOFS. The statements of 30_encoding.md: decoding and encoding are inverse, and the decoder agrees with the match and
mask columns of the opcode map. -/

namespace Sys2Proof.Machine

/-! What each operand form answers to the field it encodes (R83). -/

theorem formJ_setWidth {j : DWord} (hj : indexFits j) (mk : DWord → Instr) : formJ (j.setWidth 24) mk = .ok (mk j) := by
  have hback : (j.setWidth 24).setWidth 64 = j := by
    apply BitVec.eq_of_toNat_eq
    simp only [BitVec.toNat_setWidth]
    omega
  rw [formJ, hback]

theorem formB_setWidth (b : Byte) (mk : Byte → Instr) : formB (b.setWidth 24) mk = .ok (mk b) := by
  have hhigh : (b.setWidth 24).extractLsb' 8 16 = 0 := by
    apply BitVec.eq_of_toNat_eq
    simp only [BitVec.extractLsb'_toNat, BitVec.toNat_setWidth, Nat.shiftRight_eq_div_pow, BitVec.ofNat_eq_ofNat,
      BitVec.toNat_ofNat]
    omega
  have hlow : (b.setWidth 24).extractLsb' 0 8 = b := by
    rw [← BitVec.setWidth_eq_extractLsb' (by decide)]
    simp
  rw [formB, if_pos hhigh, hlow]

/-- A well-formed command's word decodes to the command (R82-R85). -/
theorem decode_encode {i : Instr} (hi : i.WellFormed) : decode (encode i) = .ok i := by
  rw [decode_encode_fields]
  cases i with
  | padblkSha j | padblkMd5 j => exact formJ_setWidth (of_decide_eq_true hi) _
  | djbByte b => exact formB_setWidth b _
  | _ => rfl

/-- Settles O1, by the three operand forms. -/
theorem decodeOfEncode : Obligations.DecodeOfEncode :=
  fun _ hi => decode_encode hi

theorem encode_of_decode {c : Word} {i : Instr} (h : decode c = .ok i) : i.WellFormed ∧ encode i = c := by
  obtain ⟨hwf, hop, harg⟩ := decodeFields_ok h
  rw [encode, hop, harg, commandWord_fields]
  exact ⟨hwf, rfl⟩

/-- Settles O2: a command that decodes has the word's two fields, and a word is its two fields. -/
theorem encodeOfDecode : Obligations.EncodeOfDecode :=
  fun _ _ h => encode_of_decode h

/-! The rows of the opcode map (R84). -/

theorem row_mem_opcodeMap (i : Instr) : i.row ∈ opcodeMap := by
  cases i <;> simp [opcodeMap, Instr.row]

theorem row_of_mem_opcodeMap {r : OpcodeRow} (h : r ∈ opcodeMap) : ∃ i : Instr, i.row = r := by
  obtain ⟨i, -, hi⟩ := List.mem_map.1 h
  exact ⟨i, hi⟩

theorem row_selects_encode (i : Instr) : i.row.selects (encode i) = true :=
  match i with
  | .nop => Laws.EncodesInRow.nop
  | .shaInit => Laws.EncodesInRow.shaInit
  | .shaBlock => Laws.EncodesInRow.shaBlock
  | .shaMsg => Laws.EncodesInRow.shaMsg
  | .padblkSha j => Laws.EncodesInRow.padblkSha j
  | .md5Init => Laws.EncodesInRow.md5Init
  | .md5Block => Laws.EncodesInRow.md5Block
  | .md5Msg => Laws.EncodesInRow.md5Msg
  | .padblkMd5 j => Laws.EncodesInRow.padblkMd5 j
  | .djbInit => Laws.EncodesInRow.djbInit
  | .djbByte b => Laws.EncodesInRow.djbByte b
  | .djbMsg => Laws.EncodesInRow.djbMsg

/-- The word that decodes to a command is selected by the command's row. -/
theorem row_selects_of_decode {c : Word} {i : Instr} (h : decode c = .ok i) : i.row.selects c = true := by
  obtain ⟨-, rfl⟩ := encode_of_decode h
  exact row_selects_encode i

/-! What each of the three masks selects (R83, R84). -/

/-- A row with the full mask, that of form Z, selects its pattern alone. -/
theorem eq_pattern_of_selects {c p : Word} (h : OpcodeRow.selects ⟨p, 0xFFFFFFFF#32⟩ c = true) : c = p := by
  have hand : c &&& 0xFFFFFFFF#32 = p := eq_of_beq h
  have hones : 0xFFFFFFFF#32 = BitVec.allOnes 32 := by decide
  rwa [hones, BitVec.and_allOnes] at hand

/-- A row with the mask of form J fixes OP alone. -/
theorem opField_of_selects {c : Word} {op : BitVec 8}
    (h : OpcodeRow.selects ⟨op.setWidth 32, 0x000000FF#32⟩ c = true) : opField c = op := by
  have hand : c &&& 0x000000FF#32 = op.setWidth 32 := eq_of_beq h
  rw [and_opMask] at hand
  simpa using congrArg (BitVec.setWidth 8) hand

/-- ARG is a byte when its upper 16 bits are zero. -/
theorem setWidth_byte_of_and_highMask {arg : BitVec 24} (h : arg &&& 0xFFFF00#24 = 0) :
    (arg.setWidth 8).setWidth 24 = arg := by
  apply BitVec.eq_of_getLsbD_eq
  intro i hi
  have hm : (0xFFFF00#24).getLsbD i = decide (8 ≤ i) := by
    have : ∀ k : Fin 24, (0xFFFF00#24).getLsbD k.val = decide (8 ≤ k.val) := by decide
    exact this ⟨i, hi⟩
  have hbit : (arg &&& 0xFFFF00#24).getLsbD i = false := by simp [h]
  rw [BitVec.getLsbD_and, hm] at hbit
  by_cases hlow : i < 8
  · simp [hlow, hi]
  · simpa [hlow, hi, Nat.le_of_not_lt hlow] using hbit

/-- The row of DJB_BYTE, whose mask is that of form B, selects the words of DJB_BYTE alone. -/
theorem eq_encode_djbByte_of_selects {c : Word} (h : OpcodeRow.selects ⟨0x00000022#32, 0xFFFF00FF#32⟩ c = true) :
    c = encode (.djbByte ((argField c).setWidth 8)) := by
  have hand : commandWord (opField c) (argField c) &&& 0xFFFF00FF#32 = commandWord 0x22#8 0 := by
    rw [commandWord_fields]
    exact eq_of_beq h
  rw [commandWord_and_byteMask] at hand
  have hop : opField c = 0x22#8 := by simpa using congrArg opField hand
  have harg : argField c &&& 0xFFFF00#24 = 0 := by simpa using congrArg argField hand
  calc c = commandWord (opField c) (argField c) := (commandWord_fields c).symm
    _ = commandWord 0x22#8 (((argField c).setWidth 8).setWidth 24) := by rw [hop, setWidth_byte_of_and_highMask harg]

/-- A word that a row selects decodes to a command of that row (R84, R85). -/
theorem decode_of_row_selects {i : Instr} {c : Word} (h : i.row.selects c = true) :
    ∃ k, decode c = .ok k ∧ k.row = i.row := by
  cases i with
  | padblkSha =>
    have hop : opField c = 0x04#8 := opField_of_selects h
    exact ⟨.padblkSha ((argField c).setWidth 64), by rw [decode, hop]; rfl, rfl⟩
  | padblkMd5 =>
    have hop : opField c = 0x14#8 := opField_of_selects h
    exact ⟨.padblkMd5 ((argField c).setWidth 64), by rw [decode, hop]; rfl, rfl⟩
  | djbByte =>
    rw [eq_encode_djbByte_of_selects h]
    exact ⟨_, decode_encode rfl, rfl⟩
  | _ =>
    rw [eq_pattern_of_selects h]
    exact ⟨_, rfl, rfl⟩

/-- Two rows that select one word are equal: both are the row of the command the word decodes to (R84). -/
theorem opcodeMap_selects_unique {c : Word} {r₁ r₂ : OpcodeRow} (h₁ : r₁ ∈ opcodeMap) (h₂ : r₂ ∈ opcodeMap)
    (hs₁ : r₁.selects c = true) (hs₂ : r₂.selects c = true) : r₁ = r₂ := by
  obtain ⟨i₁, rfl⟩ := row_of_mem_opcodeMap h₁
  obtain ⟨i₂, rfl⟩ := row_of_mem_opcodeMap h₂
  obtain ⟨k₁, hd₁, hk₁⟩ := decode_of_row_selects hs₁
  obtain ⟨k₂, hd₂, hk₂⟩ := decode_of_row_selects hs₂
  obtain rfl : k₁ = k₂ := Except.ok.inj (hd₁.symm.trans hd₂)
  exact hk₁.symm.trans hk₂

theorem opcodeMap_nodup : opcodeMap.Nodup := by decide

/-- Settles O3: the map lists no row twice, and any two of its rows that select one word are equal. -/
theorem atMostOneRowSelectsAWord : Obligations.AtMostOneRowSelectsAWord := by
  unfold Obligations.AtMostOneRowSelectsAWord
  intro c
  rw [← List.toFinset_card_of_nodup (opcodeMap_nodup.filter _), Finset.card_le_one]
  intro r₁ h₁ r₂ h₂
  obtain ⟨hm₁, hs₁⟩ := List.mem_filter.1 (List.mem_toFinset.1 h₁)
  obtain ⟨hm₂, hs₂⟩ := List.mem_filter.1 (List.mem_toFinset.1 h₂)
  exact opcodeMap_selects_unique hm₁ hm₂ hs₁ hs₂

/-! The words refused for their opcode (R86). -/

/-- The twelve OP values of R84. -/
def assignedOpcodes : List (BitVec 8) :=
  [0x00#8, 0x01#8, 0x02#8, 0x03#8, 0x04#8, 0x11#8, 0x12#8, 0x13#8, 0x14#8, 0x21#8, 0x22#8, 0x23#8]

theorem formZ_ne_unassigned (arg : BitVec 24) (i : Instr) : formZ arg i ≠ .error .unassignedOpcode := by
  unfold formZ
  split <;> simp

theorem formJ_ne_unassigned (arg : BitVec 24) (mk : DWord → Instr) : formJ arg mk ≠ .error .unassignedOpcode := nofun

theorem formB_ne_unassigned (arg : BitVec 24) (mk : Byte → Instr) : formB arg mk ≠ .error .unassignedOpcode := by
  unfold formB
  split <;> simp

/-- An arm of the decoder refuses no word for its opcode, so a refused word has taken the branch past it. -/
theorem ite_eq_unassigned_iff {op k : BitVec 8} {x y : Except DecodeError Instr} (hx : x ≠ .error .unassignedOpcode) :
    (if op = k then x else y) = .error .unassignedOpcode ↔ op ≠ k ∧ y = .error .unassignedOpcode := by
  by_cases h : op = k <;> simp [h, hx]

theorem decodeFields_unassigned_iff (op : BitVec 8) (arg : BitVec 24) :
    decodeFields op arg = .error .unassignedOpcode ↔ op ∉ assignedOpcodes := by
  simp [decodeFields, ite_eq_unassigned_iff, formZ_ne_unassigned, formJ_ne_unassigned, formB_ne_unassigned,
    assignedOpcodes]

theorem opField_toNat (c : Word) : (opField c).toNat = c.toNat % 256 := by
  simp [opField]

theorem decode_unassigned_iff (c : Word) :
    decode c = .error .unassignedOpcode ↔ c.toNat % 256 ∉ assignedOpcodes.map BitVec.toNat := by
  rw [decode, decodeFields_unassigned_iff, ← opField_toNat, List.mem_map_of_injective BitVec.toNat_injective]

/-- Settles O4: a word's row is the row of the command it decodes to, and only a word that passes every arm of the decoder is
refused for its opcode. -/
theorem decodeFollowsTheOpcodeMap : Obligations.DecodeFollowsTheOpcodeMap := by
  unfold Obligations.DecodeFollowsTheOpcodeMap
  intro c
  refine ⟨⟨?selected, ?decodes⟩, fun i h => ⟨row_mem_opcodeMap i, row_selects_of_decode h⟩, decode_unassigned_iff c⟩
  case selected =>
    rintro ⟨i, h⟩
    exact ⟨i.row, row_mem_opcodeMap i, row_selects_of_decode h⟩
  case decodes =>
    rintro ⟨r, hr, hs⟩
    obtain ⟨i, rfl⟩ := row_of_mem_opcodeMap hr
    obtain ⟨k, hk, -⟩ := decode_of_row_selects hs
    exact ⟨k, hk⟩

/-- Settles O5, by running the decoder on the ten words. -/
theorem specWordsDecode : Obligations.SpecWordsDecode := by
  unfold Obligations.SpecWordsDecode
  decide

end Sys2Proof.Machine
end

section
/-! PROOFS. The statements of 40_primitives.md: the word functions bit by bit, the assembly of words from bytes and of bytes
from words, the bytes of the digests and the characters of their text. -/

namespace Sys2Proof.Machine

/-! Rotations and shifts, bit by bit (R102-R104). -/

/-- A shift brings nothing in at the top. -/
theorem getLsbD_shr (x : Word) (n i : Nat) :
    (shr x n).getLsbD i = (decide (i + n < 32) && x.getLsbD (i + n)) := by
  rw [shr, BitVec.getLsbD_ushiftRight, Nat.add_comm]
  by_cases h : i + n < 32
  · simp [h]
  · simp [h, BitVec.getLsbD_of_ge x (i + n) (by omega)]

/-- Bits `n` to 31 come down by `n` places; the `n` bits below them come in at the top (R103). -/
theorem getLsbD_rotr (x : Word) {n i : Nat} (hn : n < 32) (hi : i < 32) :
    (rotr x n).getLsbD i = x.getLsbD ((i + n) % 32) := by
  rw [rotr, BitVec.getLsbD_or, getLsbD_shr, BitVec.getLsbD_shiftLeft]
  by_cases h : i + n < 32
  · have hlow : i < 32 - n := by omega
    simp [h, hlow, Nat.mod_eq_of_lt h]
  · have hhigh : ¬ i < 32 - n := by omega
    have hin : i - (32 - n) = (i + n) % 32 := by omega
    simp [h, hhigh, hi, hin]

theorem getLsbD_rotl (x : Word) {n i : Nat} (hn : n < 32) (hi : i < 32) :
    (rotl x n).getLsbD i = x.getLsbD ((i + 32 - n) % 32) := by
  rw [rotl, getLsbD_rotr x (Nat.mod_lt _ (by decide)) hi]
  congr 1
  omega

/-- Settles O46, from the bits of the two rotations. -/
theorem rotationsMoveEachBit : Obligations.RotationsMoveEachBit :=
  fun x _ _ hn hi => ⟨getLsbD_rotr x (by omega) hi, getLsbD_rotl x (by omega) hi⟩

/-- Settles O58: each term is a rotation by a fixed amount, or a shift, which runs out past bit 31. -/
theorem sigmaFunctionsPerBit : Obligations.SigmaFunctionsPerBit := by
  unfold Obligations.SigmaFunctionsPerBit
  intro x i hi
  have rot : ∀ n < 32, (rotr x n).getLsbD i = x.getLsbD ((i + n) % 32) := fun _ hn => getLsbD_rotr x hn hi
  simp [bigSigma0, bigSigma1, smallSigma0, smallSigma1, rot, getLsbD_shr]

/-! The round functions, bit by bit (R105, R106, R111-R114). -/

/-- Settles O48: every operator acts on each bit alone, so each clause is a truth table of three bits. -/
theorem roundFunctionsPerBit : Obligations.RoundFunctionsPerBit := by
  unfold Obligations.RoundFunctionsPerBit
  intro x y z i hi
  simp only [ch, maj, md5F, md5G, md5H, md5I, BitVec.getLsbD_and, BitVec.getLsbD_or, BitVec.getLsbD_xor,
    BitVec.getLsbD_not, hi, decide_true, Bool.true_and]
  generalize x.getLsbD i = a, y.getLsbD i = b, z.getLsbD i = c
  revert a b c
  decide

/-! The bytes of a number (R117, R118). -/

theorem leBytes_eq_map (v n : Nat) : leBytes v n = (List.range n).map fun k => BitVec.ofNat 8 (v / 256 ^ k) := by
  induction n generalizing v with
  | zero => rfl
  | succ n ih =>
    rw [leBytes, ih, List.range_succ_eq_map]
    simp [Nat.pow_succ', Nat.div_div_eq_div_mul]

theorem beBytes_eq_reverse (v n : Nat) : beBytes v n = (leBytes v n).reverse := by
  induction n with
  | zero => rfl
  | succ n ih =>
    rw [beBytes, ih, leBytes_eq_map, leBytes_eq_map, List.range_succ]
    simp

theorem getElem?_leBytes (v : Nat) {n k : Nat} (hk : k < n) :
    (leBytes v n)[k]? = some (BitVec.ofNat 8 (v / 2 ^ (8 * k))) := by
  rw [leBytes_eq_map, pow_mul]
  simp [hk]

/-- Byte `k` from the most significant is byte `n - 1 - k` from the least. -/
theorem getElem?_beBytes (v : Nat) {n k : Nat} (hk : k < n) : (beBytes v n)[k]? = (leBytes v n)[n - 1 - k]? := by
  rw [beBytes_eq_reverse, List.getElem?_reverse (by simpa using hk), leBytes_length]

/-! Words and their four bytes (R115, R116). -/

theorem toNat_append_byte {w : Nat} (x : BitVec w) (b : Byte) : (x ++ b).toNat = x.toNat * 2 ^ 8 + b.toNat := by
  rw [BitVec.toNat_append, ← Nat.shiftLeft_add_eq_or_of_lt b.isLt, Nat.shiftLeft_eq]

theorem le32_toNat (b0 b1 b2 b3 : Byte) :
    (le32 b0 b1 b2 b3).toNat = b0.toNat + b1.toNat * 2 ^ 8 + b2.toNat * 2 ^ 16 + b3.toNat * 2 ^ 24 := by
  rw [le32, toNat_append_byte, toNat_append_byte, toNat_append_byte]
  omega

theorem be32_eq_le32 (b0 b1 b2 b3 : Byte) : be32 b0 b1 b2 b3 = le32 b3 b2 b1 b0 := rfl

theorem leBytes_le32 (b0 b1 b2 b3 : Byte) : leBytes (le32 b0 b1 b2 b3).toNat 4 = [b0, b1, b2, b3] := by
  rw [le32_toNat]
  simp only [leBytes, List.cons.injEq, and_true]
  refine ⟨?_, ?_, ?_, ?_⟩ <;> apply BitVec.eq_of_toNat_eq <;> simp only [BitVec.toNat_ofNat] <;> omega

theorem le32_extractLsb' (v : Word) :
    le32 (v.extractLsb' 0 8) (v.extractLsb' 8 8) (v.extractLsb' 16 8) (v.extractLsb' 24 8) = v := by
  apply BitVec.eq_of_toNat_eq
  simp only [le32_toNat, BitVec.extractLsb'_toNat, Nat.shiftRight_eq_div_pow]
  omega

theorem beBytes_be32 (b0 b1 b2 b3 : Byte) : beBytes (be32 b0 b1 b2 b3).toNat 4 = [b0, b1, b2, b3] := by
  rw [beBytes_eq_reverse, be32_eq_le32, leBytes_le32]
  rfl

theorem beBytes_word (v : Word) :
    beBytes v.toNat 4 = [v.extractLsb' 24 8, v.extractLsb' 16 8, v.extractLsb' 8 8, v.extractLsb' 0 8] := by
  rw [beBytes_eq_reverse, leBytes_word]
  rfl

/-- Settles O47: be32 and be_bytes are le32 and le_bytes with the bytes in reverse, and the digits of v to base 256 are the
bytes of le_bytes. -/
theorem byteAssemblyIsPositional : Obligations.ByteAssemblyIsPositional := by
  unfold Obligations.ByteAssemblyIsPositional
  refine ⟨fun b0 b1 b2 b3 => ⟨?be32, le32_toNat .., beBytes_be32 .., leBytes_le32 ..⟩,
    fun v => ⟨⟨_, _, _, _, beBytes_word v, le32_extractLsb' v⟩, ⟨_, _, _, _, leBytes_word v, le32_extractLsb' v⟩⟩,
    fun v n _ => ⟨beBytes_length v n, leBytes_length v n, fun k hk => ⟨?be, getElem?_leBytes v hk⟩⟩⟩
  case be32 =>
    rw [be32_eq_le32, le32_toNat]
    omega
  case be => rw [getElem?_beBytes v hk, getElem?_leBytes v (by omega)]

/-! The digests and their text (R137, R168, R198). -/

/-- Where each element is mapped to `c` of them, place `c * k + b` holds the `b`-th that element `k` is mapped to. -/
theorem getElem?_flatMap_of_length {α β : Type} {f : α → List β} {c : Nat} (hf : ∀ a, (f a).length = c) (l : List α)
    (k : Nat) {b : Nat} (hb : b < c) : (l.flatMap f)[c * k + b]? = l[k]?.bind fun a => (f a)[b]? := by
  induction l generalizing k with
  | nil => simp
  | cons a l ih =>
    rw [List.flatMap_cons]
    cases k with
    | zero => rw [List.getElem?_append_left (by rw [hf]; omega)]; simp
    | succ k =>
      rw [List.getElem?_append_right (by rw [hf, Nat.mul_succ]; omega), hf, List.getElem?_cons_succ, ← ih k]
      congr 1
      rw [Nat.mul_succ]
      omega

theorem getElem?_leBytes_word (v : Word) {b : Nat} (hb : b < 4) :
    (leBytes v.toNat 4)[b]? = some (v.extractLsb' (8 * b) 8) := by
  rw [leBytes_word]
  interval_cases b <;> rfl

theorem getElem?_beBytes_word (v : Word) {b : Nat} (hb : b < 4) :
    (beBytes v.toNat 4)[b]? = some (v.extractLsb' (8 * (3 - b)) 8) := by
  rw [getElem?_beBytes _ hb, getElem?_leBytes_word v (by omega)]

/-- Words rendered in four bytes each: byte `4 * k + b` is byte `b` of word `k`. -/
theorem getElem?_flatMap_words {f : Word → List Byte} (hf : ∀ w, (f w).length = 4) {ws : List Word} {k b : Nat}
    (hk : k < ws.length) (hb : b < 4) : (ws.flatMap f)[4 * k + b]? = (f (ws.getD k 0))[b]? := by
  rw [getElem?_flatMap_of_length hf ws k hb, List.getElem?_eq_getElem hk, Option.bind_some, List.getD_eq_getElem ws 0 hk]

theorem shaDigest_eq_flatMap (h : ShaRegs) :
    shaDigest h = [h.a, h.b, h.c, h.d, h.e, h.f, h.g, h.h].flatMap fun w => beBytes w.toNat 4 := by
  simp [shaDigest]

theorem md5DigestBytes_eq_flatMap (s : Md5Regs) :
    md5DigestBytes s = [s.a, s.b, s.c, s.d].flatMap fun w => leBytes w.toNat 4 := by
  simp [md5DigestBytes]

@[simp] theorem shaDigest_length (h : ShaRegs) : (shaDigest h).length = 32 := by
  simp [shaDigest]

@[simp] theorem md5DigestBytes_length (s : Md5Regs) : (md5DigestBytes s).length = 16 := by
  simp [md5DigestBytes]

@[simp] theorem hexLower_length (bs : List Byte) : (hexLower bs).length = 2 * bs.length := by
  simp [hexLower, hexByte, Nat.mul_comm]

theorem getElem?_hexDigits {d : Nat} (hd : d < 16) : hexDigits[d]? = some (hexDigits.getD d '0') := by
  revert d
  decide

theorem getElem?_hexLower {bs : List Byte} {t : Nat} {v : Byte} (hv : bs[t]? = some v) {b : Nat} (hb : b < 2) :
    (hexLower bs)[2 * t + b]? = (hexByte v)[b]? := by
  rw [hexLower, getElem?_flatMap_of_length (c := 2) (fun _ => rfl) bs t hb, hv, Option.bind_some]

/-- Settles O59: a digest is its words' bytes, four a word, and a text is its bytes' characters, two a byte. -/
theorem digestBytesAndHexDigits : Obligations.DigestBytesAndHexDigits := by
  unfold Obligations.DigestBytesAndHexDigits
  refine ⟨fun h k b hk hb => ?sha, fun s k b hk hb => ?md5,
    fun bs => ⟨hexLower_length bs, fun t v hv => ⟨?high, ?low⟩⟩⟩
  case sha => rw [shaDigest_eq_flatMap, getElem?_flatMap_words (by simp) hk hb, getElem?_beBytes_word _ hb]
  case md5 => rw [md5DigestBytes_eq_flatMap, getElem?_flatMap_words (by simp) hk hb, getElem?_leBytes_word _ hb]
  case high => exact (getElem?_hexLower hv (b := 0) (by decide)).trans (getElem?_hexDigits (by omega)).symm
  case low => exact (getElem?_hexLower hv (b := 1) (by decide)).trans (getElem?_hexDigits (by omega)).symm

/-- Settles O56, from the length of each rendering. -/
theorem digestLengths : Obligations.DigestLengths := by
  unfold Obligations.DigestLengths
  intro m
  simp [sha256Hex, md5Hex]

end Sys2Proof.Machine
end

section
/-! PROOFS. The statements of 41_padder.md: the length and the parts of the padded message, its positional form, and the
commands that load one of its blocks. -/

namespace Sys2Proof.Machine

/-! The zero fill and the padded length (R140, R143). -/

/-- The least fill makes up exactly the blocks that nblk counts: both round L + 9 up to a multiple of 64. -/
theorem zeroFill_completes (len : Nat) : len + 1 + zeroFill len + 8 = 64 * nblk len := by
  unfold zeroFill nblk
  omega

theorem zeroFill_le (len : Nat) : zeroFill len ≤ 63 := by
  unfold zeroFill
  omega

/-- A fill that completes a block is congruent to zeroFill modulo 64, and zeroFill is below 64. -/
theorem zeroFill_le_of_completes {len k : Nat} (h : (len + 1 + k + 8) % 64 = 0) : zeroFill len ≤ k := by
  have hfill := zeroFill_completes len
  have hlt := zeroFill_le len
  omega

theorem pad_length (e : Endian) (m : List Byte) : (pad e m).length = m.length + 1 + zeroFill m.length + 8 := by
  simp only [pad, List.length_append, List.length_singleton, List.length_replicate, lengthSuffix_length]

theorem pad_length_eq_nblk (e : Endian) (m : List Byte) : (pad e m).length = 64 * nblk m.length := by
  rw [pad_length, zeroFill_completes]

/-- Settles O50, from the length of the four parts, and the fill's bound and residue modulo 64. -/
theorem zeroFillIsMinimal : Obligations.ZeroFillIsMinimal := by
  unfold Obligations.ZeroFillIsMinimal
  refine ⟨fun len => ⟨?whole, fun k => zeroFill_le_of_completes, zeroFill_completes len⟩, pad_length, by decide⟩
  case whole =>
    rw [zeroFill_completes]
    exact Nat.mul_mod_right 64 _

/-! The parts of the padded message (R141, R142, R145). -/

theorem pad_take (e : Endian) (m : List Byte) : (pad e m).take m.length = m := by
  simp [pad]

theorem pad_drop_suffix (e : Endian) (m : List Byte) :
    (pad e m).drop ((pad e m).length - 8) = lengthSuffix e m.length :=
  List.drop_left' (by simp only [pad, List.length_append, lengthSuffix_length, Nat.add_sub_cancel])

/-- Byte `k` from the suffix on. -/
theorem getElem?_pad_suffix (e : Endian) (m : List Byte) (k : Nat) :
    (pad e m)[(pad e m).length - 8 + k]? = (lengthSuffix e m.length)[k]? := by
  rw [← List.getElem?_drop, pad_drop_suffix]

theorem getElem?_lengthSuffix_le (len : Nat) {k : Nat} (hk : k < 8) :
    (lengthSuffix .le len)[k]? = some (BitVec.ofNat 8 (8 * len % 2 ^ 64 / 256 ^ k)) := by
  simp [lengthSuffix, leBytes_eq_map, bitLen, hk]

theorem getElem?_lengthSuffix_be (len : Nat) {k : Nat} (hk : k < 8) :
    (lengthSuffix .be len)[k]? = some (BitVec.ofNat 8 (8 * len % 2 ^ 64 / 256 ^ (7 - k))) := by
  rw [lengthSuffix, getElem?_beBytes _ hk]
  exact getElem?_lengthSuffix_le len (by omega)

/-! The positional form (R144). -/

/-- Byte `p` of the padded message: the message's while `p` lies in it, and the padding's byte from there on. -/
theorem getElem?_pad (e : Endian) (m : List Byte) {p : Nat} (hp : p < 64 * nblk m.length) :
    (pad e m)[p]? = some (if p < m.length then m.getD p 0#8 else padByte e m.length p) := by
  have hwhole := zeroFill_completes m.length
  by_cases hmsg : p < m.length
  · rw [if_pos hmsg, List.getD_eq_getElem m _ hmsg, ← List.getElem?_eq_getElem hmsg]
    conv_rhs => rw [← pad_take e m, List.getElem?_take_of_lt hmsg]
  rw [if_neg hmsg, padByte]
  by_cases hmark : p = m.length
  · simp [hmark, pad]
  rw [if_neg hmark]
  by_cases hzero : p < 64 * nblk m.length - 8
  · rw [if_pos hzero, pad, List.getElem?_append_left (by simp; omega), List.getElem?_append_right (by simp; omega),
      List.getElem?_replicate_of_lt (by simp; omega)]
  · rw [if_neg hzero]
    obtain ⟨k, rfl⟩ := Nat.exists_eq_add_of_le (Nat.le_of_not_lt hzero)
    have hk : k < (lengthSuffix e m.length).length := by
      rw [lengthSuffix_length]
      omega
    rw [← pad_length_eq_nblk e m, getElem?_pad_suffix, Nat.add_sub_cancel_left, List.getD_eq_getElem _ _ hk,
      List.getElem?_eq_getElem hk]

/-- Block `j` of the padded message is computed from L and the message bytes of that block. -/
theorem pad_block (e : Endian) (m : List Byte) {j : Nat} (hj : j < nblk m.length) :
    ((pad e m).drop (64 * j)).take 64 = padBlock e m.length j ((m.drop (64 * j)).take 64) := by
  apply List.ext_getElem?
  intro t
  by_cases ht : t < 64
  · rw [List.getElem?_take_of_lt ht, List.getElem?_drop, getElem?_pad e m (by omega), padBlock_getElem? e _ j _ ht]
    simp [List.getD_eq_getElem?_getD, List.getElem?_take_of_lt ht]
  · rw [List.getElem?_take_eq_none (by omega), List.getElem?_eq_none (by rw [padBlock_length]; omega)]

/-- Settles O49: the length is that of nblk(L) blocks, and the last eight bytes are the suffix of either byte order. -/
theorem paddingInvariants : Obligations.PaddingInvariants := by
  unfold Obligations.PaddingInvariants
  intro e m
  have hlen := pad_length e m
  have hblocks := pad_length_eq_nblk e m
  have hfill := zeroFill_le m.length
  refine ⟨by omega, by omega, by omega, pad_take e m, by simp [pad], pad_drop_suffix e m, fun k hk => ⟨?be, ?le⟩⟩
  case be => rw [getElem?_pad_suffix, getElem?_lengthSuffix_be _ hk]
  case le => rw [getElem?_pad_suffix, getElem?_lengthSuffix_le _ hk]

/-- Settles O51, from the padded message byte by byte. -/
theorem positionalFormIsThePadding : Obligations.PositionalFormIsThePadding := by
  unfold Obligations.PositionalFormIsThePadding
  intro e m j hj
  exact ⟨pad_block e m hj, fun t ht => getElem?_pad e m (by omega)⟩

/-! The commands that load a block (R146, R147). -/

/-- The operand of a PADBLK is the message's own bytes of block `j`, when these are written. -/
theorem segmentOperand_of_reads {s : State} {j : DWord} {m : List Byte} (hm : m.length = s.len.toNat)
    (hc : s.len.toNat ≤ s.cfg.msgCap) (hj : j.toNat < nblk s.len.toNat)
    (h : ∀ p, 64 * j.toNat ≤ p → p < min s.len.toNat (64 * j.toNat + 64) → s.msg.read p = m[p]?) :
    segmentOperand s j = .ok ((m.drop (64 * j.toNat)).take 64) := by
  rw [segmentOperand_reads hc hj]
  refine needBytes_of_holds (by simp; omega) fun t ht => ?_
  rw [List.length_take, List.length_drop] at ht
  rw [h _ (by omega) (by omega), List.getElem?_take_of_lt (by omega), List.getElem?_drop]

/-- PADBLK of either byte order writes block `j` of the padded message over BLOCK. -/
theorem padBlockCommand_loads (e : Endian) {s : State} {j : DWord} {m : List Byte} (hm : m.length = s.len.toNat)
    (hc : s.len.toNat ≤ s.cfg.msgCap) (hj : j.toNat < nblk s.len.toNat)
    (h : ∀ p, 64 * j.toNat ≤ p → p < min s.len.toNat (64 * j.toNat + 64) → s.msg.read p = m[p]?) :
    padBlockCommand e j s = .next { s with
      block := s.block.writeBytes 0 (((pad e m).drop (64 * j.toNat)).take 64)
      err := .ok } := by
  rw [padBlockCommand, segmentOperand_of_reads hm hc hj h, complete_ok, ← hm, ← pad_block e m (hm ▸ hj)]
  rfl

/-- A block of the padded message is 64 bytes, so written over BLOCK it is all of BLOCK[0..63]. -/
theorem read_writeBytes_pad_block (e : Endian) {m : List Byte} {j : Nat} (hj : j < nblk m.length) (b : Memory) :
    (∀ t < 64, (b.writeBytes 0 (((pad e m).drop (64 * j)).take 64)).read t = (pad e m)[64 * j + t]?) ∧
      ∀ a, 64 ≤ a → (b.writeBytes 0 (((pad e m).drop (64 * j)).take 64)).read a = b.read a := by
  have hlen : (((pad e m).drop (64 * j)).take 64).length = 64 := by rw [pad_block e m hj, padBlock_length]
  refine ⟨fun t ht => ?inside, fun a ha => b.read_writeBytes_outside _ (by omega)⟩
  case inside =>
    rw [Memory.read_writeBytes, if_pos (by omega), Nat.sub_zero, List.getElem?_take_of_lt ht, List.getElem?_drop]

/-- Settles O17: both commands are the one PADBLK, at their byte order. -/
theorem padblkLoadsThePaddedBlock : Obligations.PadblkLoadsThePaddedBlock := by
  unfold Obligations.PadblkLoadsThePaddedBlock
  intro s j m hm hc hj h
  have loads (e : Endian) : ∃ b : Memory, padBlockCommand e j s = .next { s with block := b, err := .ok } ∧
      (∀ t < 64, b.read t = (pad e m)[64 * j.toNat + t]?) ∧ ∀ a, 64 ≤ a → b.read a = s.block.read a :=
    ⟨_, padBlockCommand_loads e hm hc hj h, read_writeBytes_pad_block e (hm ▸ hj) s.block⟩
  exact ⟨loads .be, loads .le⟩

end Sys2Proof.Machine
end

section
/-! PROOFS. The statements of 42_sha256.md: the schedule's recurrence, the commands that start, fold and hash, the worked
digests, and that hashing a message block by block is hashing it whole. -/

namespace Sys2Proof.Machine

/-! The words of a block (R57, R162). -/

theorem wordsBE_length : ∀ bs : List Byte, (wordsBE bs).length = bs.length / 4
  | [] | [_] | [_, _] | [_, _, _] => by simp [wordsBE]
  | b0 :: b1 :: b2 :: b3 :: rest => by
    simp only [wordsBE, List.length_cons, wordsBE_length rest]
    omega

theorem wordsBE_getD : ∀ (bs : List Byte) {t : Nat}, t < bs.length / 4 → (wordsBE bs).getD t 0 =
    be32 (bs.getD (4 * t) 0) (bs.getD (4 * t + 1) 0) (bs.getD (4 * t + 2) 0) (bs.getD (4 * t + 3) 0)
  | [], _, ht | [_], _, ht | [_, _], _, ht | [_, _, _], _, ht => by simp at ht
  | b0 :: b1 :: b2 :: b3 :: rest, 0, _ => rfl
  | b0 :: b1 :: b2 :: b3 :: rest, t + 1, ht => wordsBE_getD rest (t := t) (by simp only [List.length_cons] at ht; omega)

/-! The schedule (R162, R163). -/

/-- The recurrence of R163, over the words in increasing `t`. -/
def FollowsRecurrence (w : List Word) : Prop :=
  ∀ t, 16 ≤ t → t < w.length →
    w.getD t 0 = w.getD (t - 16) 0 + smallSigma0 (w.getD (t - 15) 0) + w.getD (t - 7) 0 + smallSigma1 (w.getD (t - 2) 0)

theorem followsRecurrence_of_length_le {w : List Word} (h : w.length ≤ 16) : FollowsRecurrence w :=
  fun _ h16 ht => absurd (ht.trans_le h) (Nat.not_lt.2 h16)

/-- The newest word comes first in the list it is computed from, and last in the schedule. -/
theorem nextScheduleWord_reverse {w : List Word} (h : 16 ≤ w.length) :
    nextScheduleWord w.reverse = w.getD (w.length - 16) 0 + smallSigma0 (w.getD (w.length - 15) 0) +
      w.getD (w.length - 7) 0 + smallSigma1 (w.getD (w.length - 2) 0) := by
  have entry : ∀ k < 16, w.reverse.getD k 0 = w.getD (w.length - (k + 1)) 0 := fun k hk => by
    rw [List.getD_reverse k (by omega), Nat.sub_sub, Nat.add_comm 1 k]
  rw [nextScheduleWord, entry 15 (by decide), entry 14 (by decide), entry 6 (by decide), entry 1 (by decide)]

theorem FollowsRecurrence.concat_next {w : List Word} (h : FollowsRecurrence w) (hl : 16 ≤ w.length) :
    FollowsRecurrence (w ++ [nextScheduleWord w.reverse]) := by
  intro t h16 ht
  have old : ∀ k < w.length, (w ++ [nextScheduleWord w.reverse]).getD k 0 = w.getD k 0 :=
    fun k hk => List.getD_append w _ 0 k hk
  rw [List.length_append, List.length_singleton] at ht
  rw [old (t - 16) (by omega), old (t - 15) (by omega), old (t - 7) (by omega), old (t - 2) (by omega)]
  by_cases hnew : t = w.length
  · rw [hnew, List.getD_append_right _ _ _ _ le_rfl, Nat.sub_self, ← nextScheduleWord_reverse hl]
    rfl
  · rw [old t (by omega), h t h16 (by omega)]

theorem extendSchedule_followsRecurrence (n : Nat) {ws : List Word} (h : FollowsRecurrence ws.reverse)
    (hl : 16 ≤ ws.length) : FollowsRecurrence (extendSchedule n ws).reverse := by
  induction n generalizing ws with
  | zero => exact h
  | succ n ih =>
    refine ih ?_ (Nat.le_succ_of_le hl)
    have hnext := h.concat_next (by rwa [List.length_reverse])
    rwa [List.reverse_reverse, ← List.reverse_cons] at hnext

theorem extendSchedule_length (n : Nat) (ws : List Word) : (extendSchedule n ws).length = ws.length + n := by
  induction n generalizing ws with
  | zero => rfl
  | succ n ih =>
    rw [extendSchedule, ih, List.length_cons]
    omega

/-- Extending keeps the words there are. -/
theorem suffix_extendSchedule (n : Nat) (ws : List Word) : ws <:+ extendSchedule n ws := by
  induction n generalizing ws with
  | zero => exact List.suffix_rfl
  | succ n ih => exact (List.suffix_cons _ ws).trans (ih _)

/-- The schedule starts with the words of the block. -/
theorem wordsBE_isPrefix_schedule (blk : List Byte) : wordsBE blk <+: schedule blk := by
  have h := (suffix_extendSchedule 48 (wordsBE blk).reverse).reverse
  rwa [List.reverse_reverse] at h

/-- Settles O52: extending the sixteen words of the block keeps them, and appends the recurrence's word at every turn. -/
theorem scheduleFollowsTheRecurrence : Obligations.ScheduleFollowsTheRecurrence := by
  unfold Obligations.ScheduleFollowsTheRecurrence
  intro blk hblk
  have hwords : (wordsBE blk).length = 16 := by rw [wordsBE_length, hblk]
  have hlen : (schedule blk).length = 64 := by
    rw [schedule, List.length_reverse, extendSchedule_length, List.length_reverse, hwords]
  refine ⟨hlen, fun t ht => ?first, fun t h16 ht => ?later⟩
  case first =>
    rw [← wordsBE_getD blk (by omega), List.getD_eq_getElem _ _ (by omega), List.getD_eq_getElem _ _ (by omega)]
    exact ((wordsBE_isPrefix_schedule blk).getElem (by omega)).symm
  case later =>
    have hstart : FollowsRecurrence (wordsBE blk).reverse.reverse :=
      followsRecurrence_of_length_le (by simp [hwords])
    exact extendSchedule_followsRecurrence 48 hstart (by simp [hwords]) t h16 (ht.trans_eq hlen.symm)

/-! The commands (R169-R171, R199-R201, R224, R226). -/

/-- Settles O13: the three vectors are the constants of the ROM. -/
theorem initCommandsLoadTheVectors : Obligations.InitCommandsLoadTheVectors := by
  unfold Obligations.InitCommandsLoadTheVectors
  exact fun s => ⟨rfl, rfl, rfl⟩

/-- A command whose bytes are all written writes its register and clears ERR (R245). -/
theorem complete_of_operand {s : State} {op : Except Stop (List Byte)} {bs : List Byte} (h : op = .ok bs)
    (w : List Byte → State) (scr : State → State) : complete s op w scr = .next (w bs).succeed := by
  rw [h, complete_ok]

/-- Settles O14: the operand of both commands is BLOCK's 64 bytes. -/
theorem blockCommandsCompressTheBuffer : Obligations.BlockCommandsCompressTheBuffer := by
  unfold Obligations.BlockCommandsCompressTheBuffer
  intro s blk hl hb
  have folds := complete_of_operand (s := s) (blockOperand_of_holds hl hb)
  exact ⟨folds _ _, folds _ _⟩

/-- Settles O15: the operand of the three commands is the message. -/
theorem messageCommandsHashTheMessage : Obligations.MessageCommandsHashTheMessage := by
  unfold Obligations.MessageCommandsHashTheMessage
  intro s m hm
  have hashes := complete_of_operand (s := s) (messageOperand_of_hasMessage hm)
  exact ⟨hashes _ _, hashes _ _, hashes _ _⟩

/-- Settles O54: W1 to W4, each one block, run by the kernel. -/
theorem sourceDigests : Obligations.SourceDigests := by
  unfold Obligations.SourceDigests
  decide +kernel

/-! Block by block (R170). -/

theorem Memory.holds_writeBytes (m : Memory) (a : Nat) (bs : List Byte) : (m.writeBytes a bs).holds a bs := by
  intro t ht
  rw [Memory.read_writeBytes, if_pos (by omega), Nat.add_sub_cancel_left]

theorem blocksOf_succ (n : Nat) (p : List Byte) : blocksOf (n + 1) p = blocksOf n p ++ [(p.drop (64 * n)).take 64] := by
  simp only [blocksOf_eq_map, List.range_succ, List.map_append, List.map_singleton]

theorem runCommands_cons {i : Instr} {s t : State} (h : exec i s = .next t) (rest : List Instr) :
    runCommands (i :: rest) s = runCommands rest t := by
  rw [runCommands, h]

/-- A chain of groups of commands: where group `j` leads from a state of stage `j` to one of stage `j + 1`, the groups
0 to n-1 lead from stage 0 to stage `n`. What a stage leaves open is the parameter `b`. -/
theorem runCommands_groups {α : Type} {group : Nat → List Instr} {stage : Nat → α → State} {n : Nat}
    (h : ∀ j < n, ∀ b, ∃ b', runCommands (group j) (stage j b) = .next (stage (j + 1) b')) (b : α) :
    ∃ b', runCommands ((List.range n).flatMap group) (stage 0 b) = .next (stage n b') := by
  induction n with
  | zero => exact ⟨b, rfl⟩
  | succ n ih =>
    obtain ⟨b₁, hrun⟩ := ih fun j hj => h j (Nat.lt_succ_of_lt hj)
    obtain ⟨b₂, hgroup⟩ := h n (Nat.lt_succ_self n) b₁
    refine ⟨b₂, ?_⟩
    rw [List.range_succ, List.flatMap_append, List.flatMap_singleton, runCommands_append _ _ hrun, hgroup]

theorem pad_block_length (e : Endian) {m : List Byte} {j : Nat} (hj : j < nblk m.length) :
    (((pad e m).drop (64 * j)).take 64).length = 64 := by
  rw [pad_block e m hj, padBlock_length]

/-- PADBLK `j` of either byte order, for a message held in MSG, leaves block `j` of the padded message in BLOCK. -/
theorem padBlockCommand_of_hasMessage (e : Endian) {s : State} {m : List Byte} (hm : s.hasMessage m) {j : Nat}
    (hj : j < nblk m.length) :
    ∃ b : Memory, padBlockCommand e (BitVec.ofNat 64 j) s = .next { s with block := b, err := .ok } ∧
      b.holds 0 (((pad e m).drop (64 * j)).take 64) := by
  obtain ⟨hlen, hcap, hmsg⟩ := hm
  have hindex : (BitVec.ofNat 64 j).toNat = j := by
    have hlt := s.len.isLt
    unfold nblk at hj
    rw [BitVec.toNat_ofNat, Nat.mod_eq_of_lt (by omega)]
  have hloads := padBlockCommand_loads e (s := s) (j := BitVec.ofNat 64 j) hlen (hlen ▸ hcap) (by rwa [hindex, ← hlen])
    fun p _ hp => by simpa using hmsg p (by omega)
  rw [hindex] at hloads
  exact ⟨_, hloads, Memory.holds_writeBytes _ 0 _⟩

/-- The state `s` after SHA_INIT and the first `j` blocks of the message `m`, with `b` in BLOCK. -/
def shaChainState (s : State) (m : List Byte) (j : Nat) (b : Memory) : State :=
  { s with h := (blocksOf j (pad .be m)).foldl (fun h blk => shaCompress blk h) ivSha, block := b, err := .ok }

theorem shaChainState_zero (s : State) (m : List Byte) :
    exec .shaInit s = .next (shaChainState s m 0 s.block) := rfl

/-- After all blocks H is the whole message's hash (R167). -/
theorem shaChainState_nblk (s : State) (m : List Byte) (b : Memory) :
    shaChainState s m (nblk m.length) b = { s with h := sha256State m, block := b, err := .ok } := rfl

/-- Folding block `j` into the first `j` blocks gives the first `j + 1`. -/
theorem shaChainState_succ (s : State) (m : List Byte) (j : Nat) (b : Memory) :
    shaChainState s m (j + 1) b = { shaChainState s m j b with
      h := shaCompress (((pad .be m).drop (64 * j)).take 64) (shaChainState s m j b).h } := by
  simp only [shaChainState, blocksOf_succ, List.foldl_append, List.foldl_cons, List.foldl_nil]

/-- PADBLK_SHA `j` and SHA_BLOCK fold in block `j`. -/
theorem runCommands_shaChain_group {s : State} {m : List Byte} (hm : s.hasMessage m) {j : Nat} (hj : j < nblk m.length)
    (b : Memory) : ∃ b', runCommands [.padblkSha (BitVec.ofNat 64 j), .shaBlock] (shaChainState s m j b) =
      .next (shaChainState s m (j + 1) b') := by
  obtain ⟨b', hpad, hblock⟩ := padBlockCommand_of_hasMessage .be (s := shaChainState s m j b) hm hj
  obtain ⟨hfold, -⟩ := blockCommandsCompressTheBuffer (shaChainState s m j b') _ (pad_block_length .be hj) hblock
  refine ⟨b', ?_⟩
  calc runCommands [.padblkSha (BitVec.ofNat 64 j), .shaBlock] (shaChainState s m j b)
      = runCommands [.shaBlock] (shaChainState s m j b') := runCommands_cons (i := .padblkSha _) hpad _
    _ = runCommands [] (shaChainState s m (j + 1) b') := by
      rw [shaChainState_succ]
      exact runCommands_cons hfold _

/-- Settles O28: SHA_INIT starts the chain, and each PADBLK_SHA and SHA_BLOCK folds in the next block of the padded message,
the value SHA_MSG folds in. -/
theorem shaBlockChainHashesTheMessage : Obligations.ShaBlockChainHashesTheMessage := by
  unfold Obligations.ShaBlockChainHashesTheMessage
  intro s m hm
  obtain ⟨b, hrun⟩ := runCommands_groups (stage := shaChainState s m)
    (fun j hj b => runCommands_shaChain_group hm hj b) s.block
  obtain ⟨hlen, -⟩ := hm
  refine ⟨b, ?_⟩
  rw [shaChain, runCommands_cons (shaChainState_zero s m), ← hlen, hrun, shaChainState_nblk]

end Sys2Proof.Machine
end

section
/-! PROOFS. The statements of 43_md5.md: the message indices of the rounds, and that hashing a message block by block is
hashing it whole. -/

namespace Sys2Proof.Machine

/-! The message indices (R194). -/

/-- Within a range the index is an affine function of the round, its factor 1, 5, 3 or 7 invertible modulo 16: each word
has a round. -/
theorem exists_round_of_word : ∀ r < 4, ∀ t < 16, ∃ k < 16, md5Index (16 * r + k) = t := by decide

/-- Settles O53: the list is the index function's values, and the round of each word lies in its range of sixteen. -/
theorem md5IndexList : Obligations.Md5IndexList := by
  unfold Obligations.Md5IndexList
  refine ⟨by decide, fun r hr t ht => ?word⟩
  case word =>
    obtain ⟨k, hk, hindex⟩ := exists_round_of_word r hr t ht
    exact ⟨16 * r + k, Nat.le_add_right _ _, Nat.add_lt_add_left hk _, hindex⟩

/-! Block by block (R200). -/

/-- The state `s` after MD5_INIT and the first `j` blocks of the message `m`, with `b` in BLOCK. -/
def md5ChainState (s : State) (m : List Byte) (j : Nat) (b : Memory) : State :=
  { s with s := (blocksOf j (pad .le m)).foldl (fun r blk => md5Mix blk r) ivMd5, block := b, err := .ok }

theorem exec_md5Init (s : State) (m : List Byte) : exec .md5Init s = .next (md5ChainState s m 0 s.block) := rfl

/-- After all blocks S is the whole message's hash (R197). -/
theorem md5ChainState_nblk (s : State) (m : List Byte) (b : Memory) :
    md5ChainState s m (nblk m.length) b = { s with s := md5State m, block := b, err := .ok } := rfl

/-- MD5_BLOCK with block `j` of the padded message in BLOCK folds it in after the first `j`. -/
theorem exec_md5Block_of_holds (s : State) {m : List Byte} {j : Nat} (hj : j < nblk m.length) {b : Memory}
    (hb : b.holds 0 (((pad .le m).drop (64 * j)).take 64)) :
    exec .md5Block (md5ChainState s m j b) = .next (md5ChainState s m (j + 1) b) := by
  obtain ⟨-, hfold⟩ := blockCommandsCompressTheBuffer (md5ChainState s m j b) _ (pad_block_length .le hj) hb
  rw [hfold]
  simp only [md5ChainState, blocksOf_succ, List.foldl_append, List.foldl_cons, List.foldl_nil]

/-- PADBLK_MD5 `j` and MD5_BLOCK lead from the first `j` blocks to the first `j + 1`. -/
theorem runCommands_md5Chain_group {s : State} {m : List Byte} (hm : s.hasMessage m) {j : Nat} (hj : j < nblk m.length)
    (b : Memory) : ∃ b', runCommands [.padblkMd5 (BitVec.ofNat 64 j), .md5Block] (md5ChainState s m j b) =
      .next (md5ChainState s m (j + 1) b') := by
  obtain ⟨b', hpad, hblock⟩ := padBlockCommand_of_hasMessage .le (s := md5ChainState s m j b) hm hj
  exact ⟨b', (runCommands_cons (i := .padblkMd5 _) hpad _).trans
    (runCommands_cons (exec_md5Block_of_holds s hj hblock) [])⟩

/-- Settles O29: MD5_INIT starts the chain, and each PADBLK_MD5 and MD5_BLOCK folds in the next block of the padded message,
the value MD5_MSG folds in. -/
theorem md5BlockChainHashesTheMessage : Obligations.Md5BlockChainHashesTheMessage := by
  unfold Obligations.Md5BlockChainHashesTheMessage
  intro s m hm
  obtain ⟨b, hrun⟩ := runCommands_groups (stage := md5ChainState s m)
    (fun j hj b => runCommands_md5Chain_group hm hj b) s.block
  obtain ⟨hlen, -⟩ := hm
  refine ⟨b, ?_⟩
  rw [md5Chain, runCommands_cons (exec_md5Init s m), ← hlen, hrun, md5ChainState_nblk]

end Sys2Proof.Machine
end

section
/-! PROOFS. The statements of 44_djb2.md: the DJB2 step and fold as arithmetic on integers, and that folding a message byte
by byte is hashing it whole. -/

namespace Sys2Proof.Machine

/-! The arithmetic (R220-R223). -/

theorem djbBits_eq (c : Config) : djbBits c = 32 ∨ djbBits c = 64 := by
  unfold djbBits
  split
  · exact .inl rfl
  · exact .inr rfl

theorem two_pow_djbBits_dvd (c : Config) : 2 ^ djbBits c ∣ 2 ^ 64 := by
  have hw := djbBits_eq c
  exact Nat.pow_dvd_pow 2 (by omega)

theorem signExtend_byte_toNat (b : Byte) :
    (b.signExtend 64).toNat = if b.toNat < 0x80 then b.toNat else 2 ^ 64 - 256 + b.toNat := by
  rw [BitVec.toNat_signExtend, BitVec.toNat_setWidth_of_le (by omega), BitVec.msb_eq_decide]
  by_cases hb : b.toNat < 0x80
  · rw [if_neg (by simpa using hb), if_pos hb, Nat.add_zero]
  · rw [if_pos (by simpa using hb), if_neg hb, Nat.add_comm]

/-- The widened byte is `ext(c)` of R221: what DJB_W bits keep of 2^64 − 256 is 2^DJB_W − 256. -/
theorem djbExt_toNat (c : Config) (b : Byte) : (djbExt c b).toNat = djbExtNat c b := by
  have hb := b.isLt
  unfold djbExt djbExtNat
  cases c.byteExt with
  | zext => exact BitVec.toNat_setWidth_of_le (by omega)
  | sext =>
    change (djbReduce c (b.signExtend 64)).toNat = if b.toNat < 0x80 then b.toNat else 2 ^ djbBits c - 256 + b.toNat
    rw [djbReduce_toNat, signExtend_byte_toNat]
    obtain hw | hw := djbBits_eq c <;> rw [hw] <;> split <;> omega

/-- R222: the wrap of the 64-bit sum and product is lost in the reduction, since 2^DJB_W divides 2^64. -/
theorem djbStep_toNat (c : Config) (h : DWord) (b : Byte) :
    (djbStep c h b).toNat = (h.toNat * 33 + djbExtNat c b) % 2 ^ djbBits c := by
  have hsum : (h * 33 + djbExt c b).toNat = (h.toNat * 33 + djbExtNat c b) % 2 ^ 64 := by
    rw [BitVec.toNat_add, BitVec.toNat_mul, djbExt_toNat, Nat.mod_add_mod]
    rfl
  rw [djbStep, djbReduce_toNat, hsum, Nat.mod_mod_of_dvd _ (two_pow_djbBits_dvd c)]

/-- Settles O16: what DJB_BYTE writes is one DJB2 step. -/
theorem djbByteFoldsTheByte : Obligations.DjbByteFoldsTheByte := by
  unfold Obligations.DjbByteFoldsTheByte
  exact fun s b => ⟨djbStep s.cfg s.acc b, rfl, djbStep_toNat s.cfg s.acc b⟩

/-- Settles O55: that the accumulator is the integer reduced holds of the seed, and every byte keeps it. -/
theorem djb2IsTheFoldModuloTheWidth : Obligations.Djb2IsTheFoldModuloTheWidth := by
  unfold Obligations.Djb2IsTheFoldModuloTheWidth
  intro c m
  refine List.foldl_rel (r := fun (h : DWord) (n : Nat) => h.toNat = n % 2 ^ djbBits c) ?seed ?byte
  case seed => exact (Nat.mod_eq_of_lt (djbSeed_lt c)).symm
  case byte =>
    intro b _ h n hn
    rw [djbStep_toNat, hn, Nat.add_mod, Nat.mod_mul_mod, ← Nat.add_mod]

/-! Byte by byte (R226). -/

/-- One DJB_BYTE per byte of `m` folds `m` into ACC, where ERR is clear already. -/
theorem runCommands_djbByte (s : State) (m : List Byte) (acc : DWord) :
    runCommands (m.map .djbByte) { s with acc := acc, err := .ok } =
      .next { s with acc := m.foldl (djbStep s.cfg) acc, err := .ok } := by
  induction m generalizing acc with
  | nil => rfl
  | cons b m ih =>
    have hbyte : exec (.djbByte b) { s with acc := acc, err := .ok } =
      .next { s with acc := djbStep s.cfg acc b, err := .ok } := rfl
    rw [List.map_cons, runCommands_cons hbyte, ih, List.foldl_cons]

/-- Settles O30: DJB_INIT loads the seed that DJB_MSG starts from, and the bytes are folded in the same order. -/
theorem djbByteChainEqualsDjbMsg : Obligations.DjbByteChainEqualsDjbMsg := by
  unfold Obligations.DjbByteChainEqualsDjbMsg
  intro s m hm
  obtain ⟨-, -, hmsg⟩ := messageCommandsHashTheMessage s m hm
  obtain ⟨-, -, hinit⟩ := initCommandsLoadTheVectors s
  refine ⟨_, hmsg, ?_⟩
  rw [djbChain, runCommands_cons hinit, runCommands_djbByte]
  rfl

end Sys2Proof.Machine
end

section
/-! PROOFS. The statements of 45_control.md: issue and completion, the illegal word, NOP, and that an error of a command is
its only output. -/

namespace Sys2Proof.Machine

/-! The core's turn (R241, R242, R278). -/

/-- On the core's turn the pending command is executed (R242). -/
theorem step_command {s : State} {c : Word} {i : Instr} (hm : s.coreMoves) (hp : s.pend = some c)
    (hd : decode c = .ok i) : step s = exec i s.taken := by
  rw [step_core hm, coreTurn_pending (s := { s with agenda := s.agenda.tail }) hp, completeWord_command hd]
  rfl

/-- Settles O7: the core's turn decodes the pending word and executes it. -/
theorem stepRunsThePendingCommand : Obligations.StepRunsThePendingCommand :=
  fun _ _ _ hm hp hd => step_command hm hp hd

/-- Settles O9: the core's turn without a pending word is the idle one. -/
theorem idleCoreKeepsAllState : Obligations.IdleCoreKeepsAllState := by
  unfold Obligations.IdleCoreKeepsAllState
  intro s hm hp
  rw [step_core hm]
  exact coreTurn_idle hp

/-! A word that selects no command (R244). -/

/-- A word that no row of the opcode map selects is refused (R84, R85). -/
theorem decode_error_of_no_row {c : Word} (h : ∀ r ∈ opcodeMap, r.selects c = false) : ∃ e, decode c = .error e := by
  cases hd : decode c with
  | error e => exact ⟨e, rfl⟩
  | ok i => exact absurd (row_selects_of_decode hd) (Bool.eq_false_iff.1 (h i.row (row_mem_opcodeMap i)))

/-- Idle after an illegal word, STATUS holds ERR's code 1 in its bits 7:4 (R22, R261). -/
theorem statusWord_illegal {s : State} (hp : s.pend = none) (he : s.err = .illegal) : s.statusWord = 0x00000010#32 := by
  apply BitVec.eq_of_toNat_eq
  rw [statusWord_toNat, busy_toNat, if_pos hp, he]
  rfl

/-- Settles O8: a word that no row selects does not decode, and a refused word raises ILLEGAL. -/
theorem illegalWordSetsErrAlone : Obligations.IllegalWordSetsErrAlone := by
  unfold Obligations.IllegalWordSetsErrAlone
  intro s c hm hp hrows
  obtain ⟨e, hd⟩ := decode_error_of_no_row hrows
  exact ⟨step_illegal hm hp hd, statusWord_illegal rfl rfl⟩

/-! A pending command completes (R242, R297). -/

/-- Every command answers a next state (R12, R242). -/
theorem exec_answers (i : Instr) (s : State) : ∃ t, exec i s = .next t := by
  obtain ⟨op, w, scr, h, hop, -⟩ := exec_shape i s
  rw [h]
  cases hop with
  | bytes | capacity | index | uninit => exact ⟨_, rfl⟩

/-- After the core's turn no command is pending. -/
theorem step_completes {s : State} (hm : s.coreMoves) : ∃ t, step s = .next t ∧ t.pend = none := by
  cases hp : s.pend with
  | none => exact ⟨_, idleCoreKeepsAllState s hm hp, hp⟩
  | some c =>
    cases hd : decode c with
    | error e => exact ⟨_, step_illegal hm hp hd, rfl⟩
    | ok i =>
      obtain ⟨t, ht⟩ := exec_answers i s.taken
      obtain ⟨-, -, -, -, -, -, hpend, -⟩ := (exec_effect ht).writers
      exact ⟨t, (step_command hm hp hd).trans ht, hpend⟩

/-- A run takes its first step and goes on from there. -/
theorem run_succ {M : Host.Core} {s t : M.State} (h : M.step s = .next t) (k : Nat) : M.run (k + 1) s = M.run k t := by
  rw [Host.Core.run, h]

/-- Settles O11, by induction on the agenda: the core's turn and reset leave nothing pending, and a host access keeps the
command pending with one event fewer to come. -/
theorem pendingCommandCompletes : Obligations.PendingCommandCompletes := by
  unfold Obligations.PendingCommandCompletes
  intro s hp
  induction ha : s.agenda generalizing s with
  | nil =>
    obtain ⟨t, hs, ht⟩ := step_completes (.inl ha)
    exact ⟨0, Nat.zero_le _, t, run_succ hs 0, ht⟩
  | cons e rest ih =>
    cases e with
    | core =>
      obtain ⟨t, hs, ht⟩ := step_completes (.inr ⟨rest, ha⟩)
      exact ⟨0, Nat.zero_le _, t, run_succ hs 0, ht⟩
    | reset => exact ⟨0, Nat.zero_le _, _, run_succ (step_cons ha) 0, rfl⟩
    | host x =>
      obtain ⟨hs, hpend⟩ := hostAccessIsOneStep s x rest ha
      obtain ⟨-, -, -, -, -, hagenda⟩ := hostAccess_frame { s with agenda := rest } x
      obtain ⟨k, hk, t, hrun, ht⟩ := ih _ (ne_of_eq_of_ne (hpend hp) hp) hagenda
      exact ⟨k + 1, Nat.succ_le_succ hk, t, (run_succ hs _).trans hrun, ht⟩

/-! An error of a command is its only output (R245, R262, R263, R265). -/

theorem blockOperand_ne_raised (s : State) (e : ErrCode) : blockOperand s ≠ .error (.raised e) := by
  obtain ⟨bs, h⟩ | h := blockOperand_cases s <;> simp [h]

/-- Reading the message raises CAPACITY alone (R262). -/
theorem messageOperand_raised {s : State} {e : ErrCode} (h : messageOperand s = .error (.raised e)) :
    e = .capacity ∧ s.cfg.msgCap < s.len.toNat := by
  obtain ⟨hop, hc⟩ | ⟨-, ⟨m, hop⟩ | hop⟩ := messageOperand_cases s <;> rw [hop] at h <;> cases h
  exact ⟨rfl, hc⟩

/-- Reading a block's segment raises CAPACITY, or else INDEX (R262, R263, R266). -/
theorem segmentOperand_raised {s : State} {j : DWord} {e : ErrCode} (h : segmentOperand s j = .error (.raised e)) :
    (e = .capacity ∧ s.cfg.msgCap < s.len.toNat) ∨
      (e = .index ∧ s.len.toNat ≤ s.cfg.msgCap ∧ nblk s.len.toNat ≤ j.toNat) := by
  obtain ⟨hop, hc⟩ | ⟨hop, hc, hj⟩ | ⟨-, -, ⟨m, hop⟩ | hop⟩ := segmentOperand_cases s j <;> rw [hop] at h <;> cases h
  · exact .inl ⟨rfl, hc⟩
  · exact .inr ⟨rfl, hc, hj⟩

/-- A command that records no UninitRead succeeds, or raises the error its operand ended in and changes nothing else. -/
theorem complete_ok_or_raised {s t : State} {op : Except Stop (List Byte)} {w : List Byte → State} {scr : State → State}
    (h : complete s op w scr = .next t) (hop : StopsWith op) (hscr : ∀ x, (scr x).fault = x.fault)
    (hf : t.fault.has .uninitRead = false) : t.err = .ok ∨ ∃ e, op = .error (.raised e) ∧ t = s.raise e := by
  cases hop with
  | bytes bs =>
    obtain rfl := Host.Outcome.next.inj h
    exact .inl rfl
  | capacity | index =>
    obtain rfl := Host.Outcome.next.inj h
    exact .inr ⟨_, rfl, rfl⟩
  | uninit =>
    obtain rfl := Host.Outcome.next.inj h
    rw [State.scrambleErr_fault, hscr, State.recordFault_fault, FaultSet.has_add] at hf
    cases hf

/-- Settles O21, by what the command reads: BLOCK raises nothing, the message CAPACITY, and a block's segment CAPACITY or
INDEX; the commands that read neither succeed. -/
theorem errorsLeaveNoPartialOutput : Obligations.ErrorsLeaveNoPartialOutput := by
  unfold Obligations.ErrorsLeaveNoPartialOutput
  intro i s t h hf
  cases i with
  | shaBlock | md5Block =>
    obtain hok | ⟨e, he, -⟩ := complete_ok_or_raised h (blockOperand_stopsWith s) (fun _ => rfl) hf
    · exact .inl hok
    · exact absurd he (blockOperand_ne_raised s e)
  | shaMsg | md5Msg | djbMsg =>
    obtain hok | ⟨e, he, rfl⟩ := complete_ok_or_raised h (messageOperand_stopsWith s) (fun _ => rfl) hf
    · exact .inl hok
    · obtain ⟨rfl, hc⟩ := messageOperand_raised he
      exact .inr (.inl ⟨rfl, rfl, hc⟩)
  | padblkSha j | padblkMd5 j =>
    obtain hok | ⟨e, he, rfl⟩ := complete_ok_or_raised h (segmentOperand_stopsWith s j) (fun _ => rfl) hf
    · exact .inl hok
    · obtain ⟨rfl, hc⟩ | ⟨rfl, hc, hj⟩ := segmentOperand_raised he
      · exact .inr (.inl ⟨rfl, rfl, hc⟩)
      · exact .inr (.inr ⟨rfl, hc, j, by simp, hj⟩)
  | nop | shaInit | md5Init | djbInit | djbByte =>
    obtain rfl := Host.Outcome.next.inj h
    exact .inl rfl

/-! Issue, and NOP (R240, R243). -/

/-- A write at offset 0x000 is a write to CMD (R60). -/
theorem regWrite_cmd (s : State) (c : Word) : regWrite s 32 0x000#12 c = writeCmd s c :=
  regWrite_at s c (n := 0) rfl

/-- Settles O37: a write to CMD issues while no command is pending and is a fault otherwise. -/
theorem issueAndCommandOverlap : Obligations.IssueAndCommandOverlap := by
  unfold Obligations.IssueAndCommandOverlap
  intro s c
  rw [regWrite_cmd]
  refine ⟨fun hp => ?idle, fun hp => writeCmd_busy c hp⟩
  rw [writeCmd_idle c hp]
  exact ⟨rfl, rfl⟩

/-- NOP's word is zero (R84). -/
theorem decode_eq_nop_iff (c : Word) : decode c = .ok .nop ↔ c = 0x00000000#32 := by
  constructor
  · intro h
    obtain ⟨-, rfl⟩ := encode_of_decode h
    rfl
  · rintro rfl
    exact decode_encode (i := .nop) rfl

/-- A word with NOP's OP and ARG not zero is refused for its ARG (R83, R86). -/
theorem decode_nop_reservedArg {c : Word} (hop : c.toNat % 256 = 0) (hc : c ≠ 0) : decode c = .error .reservedArg := by
  have hopField : opField c = 0x00#8 := BitVec.eq_of_toNat_eq ((opField_toNat c).trans hop)
  have harg : argField c ≠ 0 := by
    intro h
    rw [← commandWord_fields c, hopField, h] at hc
    exact hc rfl
  rw [decode, hopField]
  exact if_neg harg

/-- Settles O12: NOP clears ERR; its word alone decodes to it; issued to an idle core it is pending until the core's turn. -/
theorem nopOnlyClearsErr : Obligations.NopOnlyClearsErr := by
  unfold Obligations.NopOnlyClearsErr
  refine ⟨fun _ => rfl, decode_eq_nop_iff, fun _ => decode_nop_reservedArg, fun s ha hp => ?issued⟩
  obtain ⟨hstep, -⟩ :=
    hostAccessIsOneStep { s with agenda := [.host (.regWrite 32 0x000#12 0x00000000#32)] } _ [] rfl
  obtain ⟨hidle, -⟩ := issueAndCommandOverlap { s with agenda := [] } 0x00000000#32
  obtain ⟨hissue, -⟩ := hidle hp
  refine ⟨_, hstep.trans (congrArg _ hissue), rfl, ?_⟩
  rw [step_command (.inl rfl) rfl ((decode_eq_nop_iff _).2 rfl)]
  cases s
  subst ha hp
  rfl

end Sys2Proof.Machine
end

section
/-! PROOFS. The statements of 60_exceptions.md: the two errors of the message commands, the order of the checks, and that
FAULT is sticky. -/

namespace Sys2Proof.Machine

/-! CAPACITY and INDEX (R262, R263). -/

/-- A command whose read raises an error changes ERR alone (R265). -/
theorem complete_of_raised {s : State} {op : Except Stop (List Byte)} {e : ErrCode} (h : op = .error (.raised e))
    (w : List Byte → State) (scr : State → State) : complete s op w scr = .next (s.raise e) := by
  rw [h, complete_raised]

/-- A command that consumes the message checks LEN before it reads or writes anything (R262). -/
theorem exec_capacity {i : Instr} {s : State} (hi : readsMessage i = true) (hc : s.cfg.msgCap < s.len.toNat) :
    exec i s = .next (s.raise .capacity) := by
  cases i with
  | shaMsg | md5Msg | djbMsg => exact complete_of_raised (messageOperand_capacity hc) _ _
  | padblkSha j | padblkMd5 j => exact complete_of_raised (segmentOperand_capacity j hc) _ _
  | nop | shaInit | shaBlock | md5Init | md5Block | djbInit | djbByte => cases hi

/-- PADBLK checks its index once LEN has passed the CAPACITY check (R263, R266). -/
theorem exec_index {i : Instr} {s : State} {j : DWord} (hi : i = .padblkSha j ∨ i = .padblkMd5 j)
    (hc : s.len.toNat ≤ s.cfg.msgCap) (hj : nblk s.len.toNat ≤ j.toNat) : exec i s = .next (s.raise .index) := by
  have raises := complete_of_raised (s := s) (segmentOperand_index hc hj)
  obtain rfl | rfl := hi
  · exact raises _ _
  · exact raises _ _

/-- Settles O18: each of the five commands consumes the message. -/
theorem capacityErrorChangesErrAlone : Obligations.CapacityErrorChangesErrAlone := by
  unfold Obligations.CapacityErrorChangesErrAlone
  exact ⟨rfl, fun _ hc => ⟨exec_capacity rfl hc, exec_capacity rfl hc, exec_capacity rfl hc,
    fun _ => ⟨exec_capacity rfl hc, exec_capacity rfl hc⟩⟩⟩

/-- Settles O19: both PADBLK commands make the INDEX check. -/
theorem indexErrorChangesErrAlone : Obligations.IndexErrorChangesErrAlone := by
  unfold Obligations.IndexErrorChangesErrAlone
  exact ⟨rfl, fun _ _ hc hj => ⟨exec_index (.inl rfl) hc hj, exec_index (.inr rfl) hc hj⟩⟩

/-! The order of the checks (R266). -/

/-- A command that fails neither check succeeds, or has UninitRead in FAULT: an error would be one of the two (R266). -/
theorem exec_uninit_or_ok {i : Instr} {s : State}
    (hchecks : readsMessage i = true →
      s.len.toNat ≤ s.cfg.msgCap ∧ ∀ j, i = .padblkSha j ∨ i = .padblkMd5 j → j.toNat < nblk s.len.toNat) :
    ∃ t, exec i s = .next t ∧ (t.fault.has .uninitRead = true ∨ t.err = .ok) := by
  obtain ⟨t, ht⟩ := exec_answers i s
  refine ⟨t, ht, or_iff_not_imp_left.2 fun hf => ?_⟩
  obtain hok | ⟨-, hi, hc⟩ | ⟨-, -, j, hi, hj⟩ := errorsLeaveNoPartialOutput i s t ht (Bool.eq_false_iff.2 hf)
  · exact hok
  · obtain ⟨hfits, -⟩ := hchecks hi
    exact absurd hc hfits.not_gt
  · obtain ⟨-, hindex⟩ := hchecks (by obtain rfl | rfl := hi <;> rfl)
    exact absurd hj (hindex j hi).not_ge

/-- Settles O20: a refused word is never executed; a command's step is its meaning on the state with its turn taken, which
has the same LEN and MSG_CAP. -/
theorem errorPriority : Obligations.ErrorPriority := by
  unfold Obligations.ErrorPriority
  intro s c hm hp
  refine ⟨fun e hd => step_illegal hm hp hd, fun i hd => ?decoded⟩
  rw [step_command hm hp hd]
  exact ⟨fun hi hc => exec_capacity hi hc, fun j hi hc hj => exec_index hi hc hj,
    fun hchecks => exec_uninit_or_ok hchecks⟩

/-! FAULT is sticky (R271). -/

/-- A host access records at most one reason (R270). -/
theorem HostEffect.fault_gains {s t : State} {x : HostAccess} (he : HostEffect s x t) :
    t.fault = s.fault ∨ ∃ r, t.fault = s.fault.add r := by
  cases he with
  | answers hf => exact hf
  | issues | setsLen | setsBlock | setsMsg => exact .inl rfl

/-- A step keeps FAULT or adds one reason to it; reset keeps it (R270, R271). -/
theorem StepEffect.fault_gains {s t : State} (he : StepEffect s t) :
    t.fault = s.fault ∨ ∃ r, t.fault = s.fault.add r := by
  cases he with
  | idle | illegal | reset => exact .inl rfl
  | command _ _ _ he =>
    obtain ⟨-, -, hf⟩ := he.agenda_bus_fault
    exact hf.imp_right fun h => ⟨_, h⟩
  | host => exact (hostAccess_effect _ _).fault_gains

/-- A step keeps every reason (R271). -/
theorem step_keeps_fault {s t : State} (h : step s = .next t) {r : Fault} (hr : s.fault.has r = true) :
    t.fault.has r = true := by
  obtain hf | ⟨q, hf⟩ := (step_effect h).fault_gains
  · rwa [hf]
  · rw [hf]
    exact FaultSet.has_add_mono _ _ _ hr

/-- A good state is reached from a good state alone: a reason before the step would be one after it (R271). -/
theorem good_of_step_good {s t : State} (h : step s = .next t) (ht : t.good) : s.good := by
  refine (FaultSet.eq_none_iff s.fault).2 fun r => Bool.eq_false_iff.2 fun hr => ?_
  have hnone := (FaultSet.eq_none_iff t.fault).1 ht r
  rw [step_keeps_fault h hr] at hnone
  cases hnone

/-- Settles O25: a step adds to FAULT at most, so a state that is not good is followed by none that is. -/
theorem faultsAreSticky : Obligations.FaultsAreSticky := by
  unfold Obligations.FaultsAreSticky
  intro s t h
  refine ⟨fun _ => step_keeps_fault h, fun hs => ?faulted⟩
  have hbad : ¬ t.good := mt (good_of_step_good h) hs
  exact ⟨hbad, fun ⟨_, hgood⟩ => hbad hgood⟩

end Sys2Proof.Machine
end

section
/-! PROOFS. The statements of 70_reset_and_hazards.md: the message commands carry no hidden state, a write to an input while
a command is pending faults, and reset sets every register. -/

namespace Sys2Proof.Machine

/-! The message commands depend on the message alone (R301). -/

/-- Bytes that are all written are some message's (R23, R36). -/
theorem exists_hasMessage {s : State} (hc : s.len.toNat ≤ s.cfg.msgCap)
    (hw : ∀ a < s.len.toNat, s.msg.read a ≠ none) : ∃ m, s.hasMessage m := by
  obtain ⟨m, hm, hl⟩ | hf := needBytes_cases s.msg 0 s.len.toNat
  · exact ⟨m, hl, hl.trans_le hc, (needBytes_ok.1 hm).2⟩
  · obtain ⟨a, ha, hnone⟩ := needBytes_faulted.1 hf
    rw [Nat.zero_add] at hnone
    exact absurd hnone (hw a ha)

/-- Which message a state has is decided by the capacity, LEN and the bytes below LEN (R23, R53, R149). -/
theorem State.hasMessage.congr {s u : State} {m : List Byte} (hm : s.hasMessage m) (hcfg : s.cfg = u.cfg)
    (hlen : s.len = u.len) (hmsg : ∀ a < s.len.toNat, u.msg.read a = s.msg.read a) : u.hasMessage m := by
  obtain ⟨hl, hc, hbytes⟩ := hm
  refine ⟨hlen ▸ hl, hcfg ▸ hc, fun a ha => ?_⟩
  rw [Nat.zero_add, hmsg a (hl ▸ ha), ← hbytes a ha, Nat.zero_add]

/-- Settles O31: the two states have the same message, and each command's register is a function of it and of the
parameters. -/
theorem messageCommandsForgetHistory : Obligations.MessageCommandsForgetHistory := by
  unfold Obligations.MessageCommandsForgetHistory
  intro s u hcfg hlen hc hbytes
  obtain ⟨m, hm⟩ := exists_hasMessage hc fun a ha => (hbytes a ha).1
  obtain ⟨hsha, hmd5, hdjb⟩ := messageCommandsHashTheMessage s m hm
  obtain ⟨hsha', hmd5', hdjb'⟩ :=
    messageCommandsHashTheMessage u m (hm.congr hcfg hlen fun a ha => (hbytes a ha).2)
  exact ⟨⟨_, _, hsha, hsha', rfl⟩, ⟨_, _, hmd5, hmd5', rfl⟩,
    ⟨_, _, hdjb, hdjb', congrArg (djb2 · m) hcfg⟩⟩

/-! Writes to an input while a command is pending (R295). -/

/-- The registers that are inputs of the commands are LEN's halves and the BLOCK words (R60, R295). -/
theorem regWrite_eq_writeInput (s : State) {off : BitVec 12} (v : Word)
    (h : off.toNat = 0x008 ∨ off.toNat = 0x00C ∨ ∃ k < 16, off.toNat = 0x080 + 4 * k) :
    ∃ w, regWrite s 32 off v = writeInput s w := by
  obtain h | h | ⟨k, hk, h⟩ := h
  · exact ⟨_, regWrite_at s v (n := 2) h⟩
  · exact ⟨_, regWrite_at s v (n := 3) h⟩
  · rw [regWrite_at s v (n := 32 + k) (by omega), regAtIndex_block hk]
    exact ⟨_, rfl⟩

/-- Settles O38: each of the writes is a write to an input, which faults while a command is pending. -/
theorem inputWritesWhileBusyFault : Obligations.InputWritesWhileBusyFault := by
  unfold Obligations.InputWritesWhileBusyFault
  intro s hp
  have legal : ∀ {bits a : Nat} (v : Word), msgAccessOk s bits a = true →
      msgWrite s bits a v = s.accessFault (.hostProtocol .writeWhileBusy) :=
    fun v hok => (msgWrite_legal v hok).trans (writeInput_busy _ hp)
  refine ⟨fun off v h => ?reg, fun a v => ⟨fun h => ?byte, fun ha h => ?word⟩⟩
  case reg =>
    obtain ⟨w, hw⟩ := regWrite_eq_writeInput s v h
    exact hw.trans (writeInput_busy w hp)
  case byte => exact legal v ((msgAccessOk_iff s 8 a).2 (.inl ⟨rfl, h⟩))
  case word => exact legal v ((msgAccessOk_iff s 32 a).2 (.inr ⟨rfl, ha, h⟩))

/-! Reset (R290, R292). -/

/-- Settles O32: a reset step never looks at PEND, and but for FAULT and the model's own fields answers the power-on state. -/
theorem resetSetsEveryRegister : Obligations.ResetSetsEveryRegister := by
  unfold Obligations.ResetSetsEveryRegister
  intro s rest ha
  exact ⟨State.applyReset { s with agenda := rest }, step_cons ha, rfl, rfl, rfl, rfl, rfl, rfl, Memory.read_nil,
    Memory.read_nil, rfl, rfl, rfl, nblkWord_resetWith s.cfg, rfl⟩

end Sys2Proof.Machine
end
